-- ==== Sys2Proof/Word.lean ====
section
/-! DEFINITION. The plain data words of the hardware: a bit (false = 0, true = 1, D22), a byte (u8) and a
16-bit word (u16), as 00_scope.md section 6.1 names them. -/

namespace Sys2Proof

/-- One bit of a bit sequence; 00_scope.md section 6.1: false is 0, true is 1. -/
abbrev Bit := Bool

/-- `u8`: a byte of a buffer, a sample of a channel, the predictor. -/
abbrev Byte := BitVec 8

/-- `u16`: a width, a height, and the 16-bit result port of READ. -/
abbrev Half := BitVec 16

end Sys2Proof
end

