-- ==== Sys2Proof/Config.lean ====
section
/-! DEFINITION. The fixed configuration of the hardware: the constants of 00_scope.md rule R5. They are not registers
(10_state.md rule R17) and have one value each. No rule leaves a computed value open, so there is no free value here. -/

namespace Sys2Proof.Config

/-- R5 BYTE_BITS: bits packed into one byte of a buffer. -/
abbrev byteBits : Nat := 8
/-- R5 SAMPLE_BITS: width of one channel value. -/
abbrev sampleBits : Nat := 8
/-- R5 DIM_BITS: width of the width field and of the height field. -/
abbrev dimBits : Nat := 16
/-- R5 HDR_BITS: length of the header. -/
abbrev hdrBits : Nat := 32
/-- R5 MAG_BITS: the magnitude field of a delta code. -/
abbrev magBits : Nat := 3
/-- R5 LIT_BITS: length of a literal code. -/
abbrev litBits : Nat := 9
/-- R5 DLT_BITS: length of a delta code. -/
abbrev dltBits : Nat := 5
/-- R5 MODULUS: the modulus of the magnitude computation. -/
abbrev modulus : Int := 8
/-- R5 DELTA_MIN: the least delta that takes the delta code. -/
abbrev deltaMin : Int := -8
/-- R5 DELTA_MAX: the greatest delta that takes the delta code. -/
abbrev deltaMax : Int := 7
/-- R5 READ_MIN: the least `length` of a READ. -/
abbrev readMin : Nat := 1
/-- R5 READ_MAX: the greatest `length` of a READ. -/
abbrev readMax : Nat := 16
/-- R5 PRED_INIT: the predictor at the start of each channel. -/
abbrev predInit : Byte := 0#8
/-- R5 CUR_INIT: the decode cursor after the header. -/
abbrev curInit : Nat := 32
/-- R5 PAD_BIT: the value of every padding bit. -/
abbrev padBit : Bit := false
/-- R5 SAMPLE range 0..255 (SAMPLE_BITS = 8): the greatest sample. -/
abbrev sampleMax : Int := 255
/-- R5 DIM range 0..65535 (DIM_BITS = 16): the greatest width and height. -/
abbrev dimMax : Int := 65535

end Sys2Proof.Config
end

