-- ==== Sys2Proof/Machine/Bits.lean ====
section
/-! DEFINITION. Bit sequences, byte packing and the read primitive of the BitReader: 00_scope.md section 6.2,
20_memory.md rules R26 to R28 and R34. Everything is MSB-first. -/

namespace Sys2Proof

/-- `zeros(n)` (section 6.2): n padding bits (R5 PAD_BIT). -/
def zeros (n : Nat) : List Bit := List.replicate n Config.padBit

/-- `bits_n(v)` (section 6.2): the low n bits of v, most significant first. -/
def bitsN : Nat → Nat → List Bit
  | 0, _ => []
  | n + 1, v => v.testBit n :: bitsN n v

/-- `uint(s)` (section 6.2): the unsigned integer whose most significant bit is the first element. -/
def uint (s : List Bit) : Nat := s.foldl (fun acc b => 2 * acc + b.toNat) 0

/-- The byte eight bits make, the first of them bit 7 (R27, R58). -/
def byteOf (s : List Bit) : Byte := BitVec.ofNat 8 (uint s)

/-- `unpack(B)` (section 6.2): the bit sequence a buffer stands for. -/
def unpack (buf : List Byte) : List Bit := buf.flatMap fun b => bitsN Config.byteBits b.toNat

/-- "the buffer's total bit count", `8 x len(buf)` (R15). -/
def bitCount (buf : List Byte) : Nat := Config.byteBits * buf.length

/-- R26: `bit(buf, p) = (buf[p div 8] >> (7 - (p mod 8))) & 1`; no bit beyond the buffer. -/
def bitAt (buf : List Byte) (p : Nat) : Option Bit :=
  (buf[p / 8]?).map fun b => b.toNat.testBit (7 - p % 8)

/-- R28: `BitRead(B, p, n) = uint(unpack(B)[p .. p+n))`, for `p + n <= 8 x len(B)`. -/
def bitRead (buf : List Byte) (p n : Nat) : Nat := uint (((unpack buf).drop p).take n)

/-- READ's body (R64) for a length it takes: the bounds error of R34 and R65, else the value. The sum is on unbounded
naturals. -/
def readBits (buf : List Byte) (p n : Nat) : Option Nat :=
  if p + n ≤ bitCount buf then some (bitRead buf p n) else none

/-- The least number of bits that brings `n` bits to a byte boundary (R46, R52). -/
def padCount (n : Nat) : Nat := (8 - n % 8) % 8

/-- The whole bytes a bit sequence fills, MSB-first, a last partial byte completed with padding bits (R52, R62 (c)). -/
def packBits : List Bit → List Byte
  | b7 :: b6 :: b5 :: b4 :: b3 :: b2 :: b1 :: b0 :: rest =>
    byteOf [b7, b6, b5, b4, b3, b2, b1, b0] :: packBits rest
  | [] => []
  | s => [byteOf (s ++ zeros (8 - s.length))]

end Sys2Proof
end

