-- ==== Sys2Proof/Syntax.lean ====
section
/-! DEFINITION. The syntax: per-sample codes, pixels, channels, error kinds, a caller's request as it stands at the
command port, what the decoder is given, and `Instr`, one constructor per row of spec/opcode_table.json. -/

namespace Sys2Proof

/-- A per-sample code (42_delta_channel_codec.md, opening): `LIT(v)` or `DLT(s, m)`. -/
inductive Code where
  | lit (v : Byte)
  | dlt (s : Bit) (m : BitVec 3)
deriving DecidableEq, Repr

/-- A pixel (00_scope.md glossary): a triple of u8, in the order red, green, blue (R40). -/
structure Pixel where
  red   : Byte
  green : Byte
  blue  : Byte
deriving DecidableEq, Repr

/-- A pixel as ENCODE's request presents it, before validation: a triple of unbounded integers (R10, R80, D10). -/
structure RawPixel where
  red   : Int
  green : Int
  blue  : Int
deriving DecidableEq, Repr

/-- The three channels (R5 CHANNELS), in their fixed order red, green, blue. -/
inductive Channel where
  | red | green | blue
deriving DecidableEq, Repr

/-- The error kinds (60_exceptions.md rule R86). -/
inductive ErrorKind where
  /-- R87: raised by ENCODE. -/
  | invalidDimension
  /-- R88: raised by ENCODE. -/
  | outOfRangeSample
  /-- R89: raised by READ, and through it by DECODE. -/
  | truncatedBuffer
  /-- R90: never raised by the hardware. -/
  | roundTripMismatch
  /-- R76: raised by DECODE_SAMPLE, and through it by DECODE. -/
  | deltaOutOfRange
deriving DecidableEq, Repr

/-- One request at the command port: the 4-bit command code (R53) and, beside it, every operand field an operation may
take (R10; "not packed into a word"). A field the selected operation does not take is not looked at. -/
structure Request where
  /-- R53: the command code `uuoo`. -/
  code      : BitVec 4
  /-- APPEND's bits. -/
  bits      : List Bit
  /-- The buffer of READ and of DECODE; `none` is "no buffer bound" (R15). -/
  buf       : Option (List Byte)
  /-- READ's bit_offset. -/
  bitOffset : Nat
  /-- READ's length. -/
  length    : Nat
  /-- ENCODE_SAMPLE's value, before its type u8 is checked. -/
  value     : Nat
  /-- DECODE_SAMPLE's code, spelled as its bits (R41, R42), before it is checked to be one. -/
  sample    : List Bit
  /-- ENCODE's width. -/
  width     : Int
  /-- ENCODE's height. -/
  height    : Int
  /-- ENCODE's pixels. -/
  pixels    : List RawPixel
deriving DecidableEq, Repr

/-- What the decoder is given: a request of the command port, a buffer whose header is due (R45: positions 0 to 31), or
a buffer and the stream position at which a per-sample code is due (R47, R74). -/
inductive Encoded where
  | request (q : Request)
  | headerAt (buf : List Byte)
  | codeAt (buf : List Byte) (p : Nat)
deriving DecidableEq, Repr

/-- Why the decoder gives no instruction. -/
inductive DecodeError where
  /-- R54: the command code selects nothing. -/
  | unassignedCode (code : BitVec 4)
  /-- R15, R103: READ or DECODE with no buffer bound. -/
  | noBufferBound
  /-- R67, R103: READ with `length` outside 1..16. -/
  | readLength
  /-- R103: ENCODE_SAMPLE with a value above 255. -/
  | sampleWidth
  /-- R103: DECODE_SAMPLE with a code that is neither LIT nor DLT. -/
  | notACode
  /-- R65, R74, R83: a needed bit of the buffer is missing; the run answers TruncatedBuffer. -/
  | truncated
deriving DecidableEq, Repr

/-- The instructions: one constructor per row of spec/opcode_table.json. The first three are the wire formats a
FrameCodec run consumes or produces (30_encoding.md), the other eight the operations a caller requests (R2). -/
inductive Instr where
  /-- HDR (R45). -/
  | hdr (width height : Half)
  /-- LIT (R41). -/
  | lit (v : Byte)
  /-- DLT (R42). -/
  | dlt (s : Bit) (m : BitVec 3)
  /-- APPEND (R58). -/
  | append (bits : List Bit)
  /-- FINALIZE (R59). -/
  | finalize
  /-- READ (R64). -/
  | read (buf : List Byte) (bitOffset length : Nat)
  /-- CH_RESET (R70). -/
  | chReset
  /-- ENCODE_SAMPLE (R71). -/
  | encodeSample (value : Byte)
  /-- DECODE_SAMPLE (R72). -/
  | decodeSample (code : Code)
  /-- ENCODE (R80). -/
  | encode (width height : Int) (pixels : List RawPixel)
  /-- DECODE (R82). -/
  | decode (buf : List Byte)
deriving DecidableEq, Repr

end Sys2Proof
end

