-- ==== Sys2Proof/WellFormed.lean ====
section
/-! DEFINITION. Which instructions are well formed. The types of `Instr` already hold every operand to its type
(R10); the one bound they do not hold is READ's `length` in 1..16 (R67). -/

namespace Sys2Proof

/-- `length` is one READ takes (R5 READ_MIN, READ_MAX; R67). -/
def readLengthOk (length : Nat) : Bool :=
  decide (Config.readMin ≤ length) && decide (length ≤ Config.readMax)

/-- The instruction is one the hardware has a meaning for (R9, R103). -/
def Instr.wellFormed : Instr → Bool
  | .hdr _ _ => true
  | .lit _ => true
  | .dlt _ _ => true
  | .append _ => true
  | .finalize => true
  | .read _ _ length => readLengthOk length
  | .chReset => true
  | .encodeSample _ => true
  | .decodeSample _ => true
  | .encode _ _ _ => true
  | .decode _ => true

end Sys2Proof
end

