-- ==== Sys2Proof/Decode.lean ====
section
/-! DEFINITION. The decoder, total on every request and every buffer, rejecting by name; after it the encoder; and
`decodeTableWord`. Sources: 30_encoding.md rules R41 to R47, R53, R54; 42_delta_channel_codec.md rules R73, R74. -/

namespace Sys2Proof

/-- Step 1 of DECODE (R82): width from bits [0,16), height from bits [16,32) (R45). -/
def decodeHeader (buf : List Byte) : Option (Half × Half) :=
  match readBits buf 0 Config.dimBits with
  | none => none
  | some w =>
    match readBits buf Config.dimBits Config.dimBits with
    | none => none
    | some h => some (BitVec.ofNat 16 w, BitVec.ofNat 16 h)

/-- PARSE (R74): the code at stream position p and the number of bits it takes; none when a READ of it fails. -/
def parse (buf : List Byte) (p : Nat) : Option (Code × Nat) :=
  match readBits buf p 1 with
  | none => none
  | some f =>
    if f = 0 then
      match readBits buf (p + 1) Config.sampleBits with
      | none => none
      | some v => some (.lit (BitVec.ofNat 8 v), Config.litBits)
    else
      match readBits buf (p + 1) 1 with
      | none => none
      | some s =>
        match readBits buf (p + 2) Config.magBits with
        | none => none
        | some m => some (.dlt (decide (s = 1)) (BitVec.ofNat 3 m), Config.dltBits)

/-- The code a bit sequence spells out exactly (R41, R42); none when it is neither a LIT nor a DLT. -/
def codeOfBits : List Bit → Option Code
  | false :: vs => if vs.length = Config.sampleBits then some (.lit (BitVec.ofNat 8 (uint vs))) else none
  | true :: s :: ms => if ms.length = Config.magBits then some (.dlt s (BitVec.ofNat 3 (uint ms))) else none
  | _ => none

/-- A request's operation and its typed operands (R10, R53); R54, R67, R103: what has no meaning is rejected by name. -/
def decodeRequest (q : Request) : Except DecodeError Instr :=
  match q.code.toNat with
  | 0b0000 => .ok (.append q.bits)
  | 0b0001 => .ok .finalize
  | 0b0100 =>
    if readLengthOk q.length then
      match q.buf with
      | none => .error .noBufferBound
      | some buf => .ok (.read buf q.bitOffset q.length)
    else .error .readLength
  | 0b1000 => .ok .chReset
  | 0b1001 => if q.value < 256 then .ok (.encodeSample (BitVec.ofNat 8 q.value)) else .error .sampleWidth
  | 0b1010 =>
    match codeOfBits q.sample with
    | none => .error .notACode
    | some c => .ok (.decodeSample c)
  | 0b1100 => .ok (.encode q.width q.height q.pixels)
  | 0b1101 =>
    match q.buf with
    | none => .error .noBufferBound
    | some buf => .ok (.decode buf)
  | _ => .error (.unassignedCode q.code)

/-- The instruction of a per-sample code. -/
def Code.instr : Code → Instr
  | .lit v => .lit v
  | .dlt s m => .dlt s m

/-- The decoder. -/
def decode : Encoded → Except DecodeError Instr
  | .request q => decodeRequest q
  | .headerAt buf =>
    match decodeHeader buf with
    | none => .error .truncated
    | some (w, h) => .ok (.hdr w h)
  | .codeAt buf p =>
    match parse buf p with
    | none => .error .truncated
    | some (c, _) => .ok c.instr

/-- SER (R73): the 9 bits of a literal code (R41), the 5 bits of a delta code (R42). -/
def ser : Code → List Bit
  | .lit v => false :: bitsN Config.sampleBits v.toNat
  | .dlt s m => true :: s :: bitsN Config.magBits m.toNat

/-- WRITE_HEADER (R45, R56): `bits_16(width) ++ bits_16(height)`. -/
def headerBits (w h : Half) : List Bit := bitsN Config.dimBits w.toNat ++ bitsN Config.dimBits h.toNat

/-- A request that carries command code `c` and, in every operand field, the least value of the field's type: no bits,
the empty buffer, offset 0, length 1, sample 0, the literal code of 0, a 0 x 0 image. -/
def Request.ofCode (c : BitVec 4) : Request :=
  { code := c, bits := [], buf := some [], bitOffset := 0, length := Config.readMin, value := 0,
    sample := ser (.lit 0#8), width := 0, height := 0, pixels := [] }

/-- The encoder: the request that asks for an operation (R53), the bytes of a header (R45), the bytes that begin with a
code (R41, R42; padded to a byte as R52 pads). -/
def encode : Instr → Encoded
  | .hdr w h => .headerAt (packBits (headerBits w h))
  | .lit v => .codeAt (packBits (ser (.lit v))) 0
  | .dlt s m => .codeAt (packBits (ser (.dlt s m))) 0
  | .append bits => .request { Request.ofCode 0b0000#4 with bits := bits }
  | .finalize => .request (Request.ofCode 0b0001#4)
  | .read buf bitOffset length =>
    .request { Request.ofCode 0b0100#4 with buf := some buf, bitOffset := bitOffset, length := length }
  | .chReset => .request (Request.ofCode 0b1000#4)
  | .encodeSample value => .request { Request.ofCode 0b1001#4 with value := value.toNat }
  | .decodeSample code => .request { Request.ofCode 0b1010#4 with sample := ser code }
  | .encode width height pixels =>
    .request { Request.ofCode 0b1100#4 with width := width, height := height, pixels := pixels }
  | .decode buf => .request { Request.ofCode 0b1101#4 with buf := some buf }

/-- A row's bits as the opcode table numbers them, laid out for the decoder (the table's bit `hi` is the first bit of the
stream): 32 bits are a header; 9 bits with flag 0 a literal code; 5 bits with flag 1 a delta code; 4 bits a command
code, with its operand fields as in `Request.ofCode`. Bits above the row's own must be 0. -/
def encodedOfTableWord (nbits w : Nat) : Option Encoded :=
  if nbits = 32 then
    if w < 2 ^ 32 then some (.headerAt (packBits (bitsN 32 w))) else none
  else if 8 < nbits then
    if nbits ≤ 16 ∧ w < 2 ^ 8 then some (.codeAt (packBits (bitsN Config.litBits w)) 0) else none
  else if w < 2 ^ 4 then some (.request (Request.ofCode (BitVec.ofNat 4 w)))
  else if w < 2 ^ 5 then some (.codeAt (packBits (bitsN Config.dltBits w)) 0)
  else none

/-- The instruction the decoder reads from a table row's bits; none where it refuses. -/
def decodeTableWord (nbits w : Nat) : Option Instr :=
  match encodedOfTableWord nbits w with
  | none => none
  | some e =>
    match decode e with
    | .ok i => some i
    | .error _ => none

end Sys2Proof
end

