-- ==== Sys2Proof/Machine/Flags.lean ====
section
/-! DEFINITION. The hardware has no status flag (R21). The one-bit fields the spec calls flag and sign, and the
magnitude, are fields of a code; their computations stand here (R43, R71, R77). -/

namespace Sys2Proof.Machine

/-- R71: `delta = value - predictor`, a signed difference on unbounded integers, -255 .. 255. -/
def sampleDelta (pred value : Byte) : Int := (value.toNat : Int) - (pred.toNat : Int)

/-- The flag of the code (R71): set, a delta code, when -8 <= delta <= 7; both boundaries inclusive. -/
def deltaFlag (delta : Int) : Bool := decide (Config.deltaMin ≤ delta) && decide (delta ≤ Config.deltaMax)

/-- The sign field (R43): `delta < 0`. -/
def deltaSign (delta : Int) : Bit := decide (delta < 0)

/-- The magnitude field (R43): `delta mod 8`, the mathematical modulo with result in [0,7]. -/
def deltaMagnitude (delta : Int) : BitVec 3 := BitVec.ofInt 3 (delta % Config.modulus)

/-- The signed delta of a DLT code (R43): `magnitude - 8` if the sign bit is set, else `magnitude`. -/
def codeDelta (s : Bit) (m : BitVec 3) : Int :=
  if s then (m.toNat : Int) - Config.modulus else (m.toNat : Int)

/-- Whether an integer is a u8, 0..255 (R72, R81). -/
def inSampleRange (x : Int) : Bool := decide (0 ≤ x) && decide (x ≤ Config.sampleMax)

/-- Whether an integer is a u16, 0..65535 (R81, R87). -/
def inDimRange (x : Int) : Bool := decide (0 ≤ x) && decide (x ≤ Config.dimMax)

end Sys2Proof.Machine
end

