-- ==== Sys2Proof/Machine/State.lean ====
section
/-! DEFINITION. The machine's state as plain data (10_state.md), the reasons a step can stop, and reset (R24, R104). -/

namespace Sys2Proof.Machine

/-- A BitWriter (R11, R12): the partial-byte buffer `BW.part` and the output buffer `BW.out`. -/
structure BitWriter where
  /-- `BW.part` (R11): the bits accepted since the last byte was emitted, in order. -/
  part : List Bit
  /-- `BW.out` (R12): the bytes emitted so far, append-only (space OUT of R25). -/
  out  : List Byte
deriving DecidableEq, Repr

/-- R24, R104 (a): a new BitWriter has nothing pending and nothing emitted. -/
def BitWriter.empty : BitWriter := { part := [], out := [] }

/-- The hardware's one writable memory is the bit stream of a BitWriter (R25, space OUT; log 14). -/
abbrev Memory := BitWriter

/-- The canonical form of that memory (R13): at most 7 bits stand outside whole bytes, so that equal bit streams are
equal data. -/
def Memory.wf (m : Memory) : Bool := decide (m.part.length ≤ 7)

/-- R18, R25: the three decoded channel sequences `FC.chan[c]` (space CHAN). -/
structure ChannelSeqs where
  red   : List Byte
  green : List Byte
  blue  : List Byte
deriving DecidableEq, Repr

/-- R24: each channel sequence is empty at the start of a run. -/
def ChannelSeqs.empty : ChannelSeqs := { red := [], green := [], blue := [] }

/-- Which FrameCodec run is in progress (R18, R104 (c)). -/
inductive RunKind where
  | encode | decode
deriving DecidableEq, Repr

/-- The working registers of a FrameCodec run (R18), its private BitWriter and predictor, the buffer its reader is bound
to (R15, R38) and the image it reads (R25, space IMG). -/
structure Fc where
  /-- The model's own field (log 8): the run is past its header step, step 1 of R80 and of R82. -/
  headerDone : Bool
  /-- `FC.width`. -/
  width  : Half
  /-- `FC.height`. -/
  height : Half
  /-- `FC.count`: width x height. -/
  count  : Nat
  /-- `FC.ch`: the channel being coded; `none` is the "done" after blue of R84. -/
  ch     : Option Channel
  /-- `FC.idx`: the next sample of that channel. -/
  idx    : Nat
  /-- `FC.cur`: DECODE's bit cursor (R19). -/
  cur    : Nat
  /-- `FC.chan[c]`: DECODE's decoded samples. -/
  chan   : ChannelSeqs
  /-- The private BW of an ENCODE. -/
  bw     : BitWriter
  /-- The private DCC's predictor. -/
  pred   : Byte
  /-- The buffer a DECODE reads. -/
  buf    : List Byte
  /-- The pixels an ENCODE reads. -/
  pixels : List Pixel
deriving DecidableEq, Repr

/-- R24: the registers as a run finds them when it is created, and as they stand while no run is in progress. The spec
gives no value to width, height and count (log 8). -/
def Fc.reset : Fc :=
  { headerDone := false, width := 0#16, height := 0#16, count := 0, ch := some .red, idx := 0, cur := Config.curInit,
    chan := .empty, bw := .empty, pred := Config.predInit, buf := [], pixels := [] }

/-- The response to one request (R9, R10). -/
inductive Response where
  /-- `ok()`: APPEND, CH_RESET. -/
  | ok
  /-- `ok(buf)`: FINALIZE, ENCODE. -/
  | buffer (buf : List Byte)
  /-- `ok(value)` of READ, zero-extended on the 16-bit result port (R64). -/
  | value (v : Half)
  /-- `ok(code)`: ENCODE_SAMPLE. -/
  | code (c : Code)
  /-- `ok(value)` of DECODE_SAMPLE. -/
  | sample (v : Byte)
  /-- `ok(width, height, pixels)`: DECODE. -/
  | image (width height : Half) (pixels : List Pixel)
  /-- `error(kind)` (R9, R86). -/
  | error (k : ErrorKind)
deriving DecidableEq, Repr

/-- The machine's state. -/
structure State where
  /-- The caller-visible BitWriter: `BW.part`, `BW.out` (R11, R12). -/
  bw        : BitWriter
  /-- The caller-visible predictor `DCC.pred` (R16). -/
  pred      : Byte
  /-- The FrameCodec run in progress, if any (R18, R104 (c)). -/
  run       : Option RunKind
  /-- The FrameCodec's working registers (R18). -/
  fc        : Fc
  /-- The model's own field (log 1): the requests the caller has yet to issue, oldest first (R8). -/
  requests  : List Request
  /-- The model's own field (log 2): the responses the caller has received, newest first (R8, R9). -/
  responses : List Response
deriving DecidableEq, Repr

/-- Power-on (R24, R104 (c), D15): both units as newly created, no run in progress, no request, no response. -/
def State.reset : State :=
  { bw := .empty, pred := Config.predInit, run := none, fc := .reset, requests := [], responses := [] }

/-- Why the machine stops with a fault. -/
inductive Fault where
  /-- Raised by ENCODE and DECODE if their sequencer has not ended within 3 x count + 4 iterations. R84 ("Termination:
  exactly 3 x count samples, so every run ends") says it is never reached. Safe: it could only make the model stop. -/
  | sequencerStuck
deriving DecidableEq, Repr

/-- Why a step has no meaning: `refused` of R9, and the model's own cases. -/
inductive Refusal where
  /-- Raised by an arm of `exec` for an instruction without a meaning. Safe. -/
  | notModelled (mnemonic : String)
  /-- Raised by `step`: the request has no meaning (R54, R103). Safe: the spec refuses it too. -/
  | badRequest (why : DecodeError)
  /-- Raised by READ with `length` outside 1..16 (R67, R103). Safe: the spec refuses it too. -/
  | readLength
  /-- Raised by `step` when the caller has issued no request: "nothing in the hardware steps without a request" (R8).
  Safe. -/
  | noRequest
  /-- Raised by HDR, LIT, DLT when no run is in progress: a wire format is no operation a caller can request (R2), it is
  consumed or produced by a FrameCodec run only. Safe. -/
  | noRun
  /-- Raised by HDR when the run in progress is past its header, by LIT and DLT when it has no sample due (R80, R82).
  Safe. -/
  | notDue
  /-- Raised by HDR, LIT, DLT in an ENCODE run that does not produce that item at this point (R50, R71, R80). Safe. -/
  | notProduced
deriving DecidableEq, Repr

/-- What the fetch finds for a step to do. -/
inductive Fetched where
  /-- An instruction, and the state it runs in. -/
  | instr (i : Instr) (s : State)
  /-- No instruction: a move of the sequencer, or the end of a run. -/
  | internal (s : State)
  /-- Nothing that has a meaning. -/
  | refuse (r : Refusal)
deriving DecidableEq, Repr

/-- What one iteration of a run's sequencer gives. -/
inductive Progress where
  /-- The run goes on. -/
  | running (f : Fc)
  /-- The run ends with its response. -/
  | finished (r : Response)
deriving DecidableEq, Repr

end Sys2Proof.Machine
end

