-- ==== Sys2Proof/Machine/Operands.lean ====
section
/-! DEFINITION. The operand forms: components of a pixel, the channel order, the validation of ENCODE's image (R81),
code lengths (R47), error and command numbers (R86), and zipping three channels into pixels (R82 step 4). -/

namespace Sys2Proof.Machine

/-- R79: `px[c]`, component c of a pixel. -/
def component (px : Pixel) : Channel → Byte
  | .red => px.red
  | .green => px.green
  | .blue => px.blue

/-- R84: red -> green -> blue -> done. -/
def nextChannel : Channel → Option Channel
  | .red => some .green
  | .green => some .blue
  | .blue => none

/-- `FC.chan[c]`. -/
def ChannelSeqs.get (cs : ChannelSeqs) : Channel → List Byte
  | .red => cs.red
  | .green => cs.green
  | .blue => cs.blue

/-- R82: `chan[c] <- chan[c] ++ <value>`. -/
def ChannelSeqs.push (cs : ChannelSeqs) (c : Channel) (v : Byte) : ChannelSeqs :=
  match c with
  | .red => { cs with red := cs.red ++ [v] }
  | .green => { cs with green := cs.green ++ [v] }
  | .blue => { cs with blue := cs.blue ++ [v] }

/-- R82 step 4: pixel i is (chan[0][i], chan[1][i], chan[2][i]). -/
def zipPixels : List Byte → List Byte → List Byte → List Pixel
  | r :: rs, g :: gs, b :: bs => { red := r, green := g, blue := b } :: zipPixels rs gs bs
  | _, _, _ => []

/-- R47: a literal code is 9 bits long, a delta code 5. -/
def codeLength : Code → Nat
  | .lit _ => Config.litBits
  | .dlt _ _ => Config.dltBits

/-- R86: the numeric code of an error kind. -/
def errorNumber : ErrorKind → Nat
  | .invalidDimension => 1
  | .outOfRangeSample => 2
  | .truncatedBuffer => 3
  | .roundTripMismatch => 4
  | .deltaOutOfRange => 5

/-- R81, last check, for one pixel: every component is 0..255. -/
def narrowPixel (px : RawPixel) : Option Pixel :=
  if inSampleRange px.red && inSampleRange px.green && inSampleRange px.blue then
    some { red := BitVec.ofInt 8 px.red, green := BitVec.ofInt 8 px.green, blue := BitVec.ofInt 8 px.blue }
  else none

/-- R81, last check, for the whole sequence: none as soon as one pixel fails. -/
def narrowPixels : List RawPixel → Option (List Pixel)
  | [] => some []
  | px :: rest =>
    match narrowPixel px with
    | none => none
    | some p =>
      match narrowPixels rest with
      | none => none
      | some ps => some (p :: ps)

/-- An image that passed validation (R81): u16 dimensions and u8 samples. -/
structure Image where
  width  : Half
  height : Half
  pixels : List Pixel
deriving DecidableEq, Repr

/-- R81: width, height, length, then the samples; the first failing check decides the kind (R93, D18). -/
def validate (width height : Int) (pixels : List RawPixel) : Except ErrorKind Image :=
  if inDimRange width = false then .error .invalidDimension
  else if inDimRange height = false then .error .invalidDimension
  else if (pixels.length : Int) ≠ width * height then .error .invalidDimension
  else
    match narrowPixels pixels with
    | none => .error .outOfRangeSample
    | some ps => .ok { width := BitVec.ofInt 16 width, height := BitVec.ofInt 16 height, pixels := ps }

end Sys2Proof.Machine
end

