-- ==== Sys2Proof/Machine/Ops.lean ====
section
/-! DEFINITION. The named operations over the registers and buffers, shared by the meanings: the BitWriter's (R58, R59,
R61), the BitReader's (R64), the DeltaChannelCodec's (R70 to R72), and giving a response or raising an error
(R9, R91). -/

namespace Sys2Proof.Machine

/-- R58, the loop's body: one bit enters the partial byte; the eighth completes a byte, its first bit bit 7. -/
def BitWriter.appendBit (w : BitWriter) (b : Bit) : BitWriter :=
  if (w.part ++ [b]).length = Config.byteBits then { part := [], out := w.out ++ [byteOf (w.part ++ [b])] }
  else { w with part := w.part ++ [b] }

/-- R58: the bits of one APPEND enter in the order given. -/
def BitWriter.append (w : BitWriter) (bits : List Bit) : BitWriter := bits.foldl BitWriter.appendBit w

/-- R61: APPEND_UINT v, n. -/
def BitWriter.appendUint (w : BitWriter) (v n : Nat) : BitWriter := w.append (bitsN n v)

/-- R59: a pending partial byte is completed with zero bits on its low-order side and emitted. -/
def BitWriter.finalize (w : BitWriter) : BitWriter :=
  if 1 ≤ w.part.length then
    { part := [], out := w.out ++ [byteOf (w.part ++ zeros (Config.byteBits - w.part.length))] }
  else w

/-- R13: the bit stream the writer holds, `unpack(BW.out) ++ BW.part`. -/
def BitWriter.stream (w : BitWriter) : List Bit := unpack w.out ++ w.part

/-- R13: the writer position, the stream position the next appended bit will take. -/
def BitWriter.pos (w : BitWriter) : Nat := Config.byteBits * w.out.length + w.part.length

/-- R14: `BW.cnt`, 3 bits. -/
def BitWriter.cnt (w : BitWriter) : BitVec 3 := BitVec.ofNat 3 w.part.length

/-- R14: `BW.acc`, 8 bits, the pending bits left-justified with zeros below them. -/
def BitWriter.acc (w : BitWriter) : Byte := byteOf (w.part ++ zeros (Config.byteBits - w.part.length))

/-- R71: the code of a value against a predictor. -/
def encodeValue (pred value : Byte) : Code :=
  if deltaFlag (sampleDelta pred value) then
    .dlt (deltaSign (sampleDelta pred value)) (deltaMagnitude (sampleDelta pred value))
  else .lit value

/-- R72, R76: the value of a code against a predictor; none when predictor + delta leaves 0..255. -/
def decodeValue (pred : Byte) : Code → Option Byte
  | .lit v => some v
  | .dlt s m =>
    if inSampleRange ((pred.toNat : Int) + codeDelta s m) then
      some (BitVec.ofInt 8 ((pred.toNat : Int) + codeDelta s m))
    else none

/-- R9, R10: the operation returns its response to the caller. -/
def State.respond (s : State) (r : Response) : State := { s with responses := r :: s.responses }

/-- R91, R96: raising an error. The operation's outcome is `error(kind)` and nothing else; no register changes, nothing
is entered, and the caller's next request is handled as any other (R94: there is no return). -/
def State.raise (s : State) (k : ErrorKind) : State := s.respond (.error k)

/-- R18: the run in progress ends: its registers are discarded, whatever the outcome, and its response is given. -/
def State.endRun (s : State) (r : Response) : State := { s with run := none, fc := .reset }.respond r

/-- What a sequencer iteration leaves of the state. -/
def State.progress (s : State) : Progress → State
  | .running f => { s with fc := f }
  | .finished r => s.endRun r

end Sys2Proof.Machine
end

