-- ==== Sys2Proof/Machine/BitReader.lean ====
section
/-! DEFINITION. The BitReader's operation: 41_bitreader.md. -/

namespace Sys2Proof.Machine

/-- READ (R64): the value, or the bounds error (R65); a length outside 1..16 is refused (R67). -/
def execRead (buf : List Byte) (bitOffset length : Nat) (s : State) : Host.Outcome State Fault Refusal :=
  if readLengthOk length then
    match readBits buf bitOffset length with
    | none => .next (s.raise .truncatedBuffer)
    | some v => .next (s.respond (.value (BitVec.ofNat 16 v)))
  else .refused .readLength

end Sys2Proof.Machine
end

