-- ==== Sys2Proof/Machine/BitWriter.lean ====
section
/-! DEFINITION. The BitWriter's operations: 40_bitwriter.md. -/

namespace Sys2Proof.Machine

/-- APPEND (R58). -/
def execAppend (bits : List Bit) (s : State) : Host.Outcome State Fault Refusal :=
  .next ({ s with bw := s.bw.append bits }.respond .ok)

/-- FINALIZE (R59): the returned buffer is a value, a copy of `BW.out` (R116). -/
def execFinalize (s : State) : Host.Outcome State Fault Refusal :=
  .next ({ s with bw := s.bw.finalize }.respond (.buffer s.bw.finalize.out))

end Sys2Proof.Machine
end

