-- ==== Sys2Proof/Machine/DeltaChannelCodec.lean ====
section
/-! DEFINITION. The DeltaChannelCodec's operations: 42_delta_channel_codec.md. -/

namespace Sys2Proof.Machine

/-- CH_RESET (R70). -/
def execChReset (s : State) : Host.Outcome State Fault Refusal :=
  .next ({ s with pred := Config.predInit }.respond .ok)

/-- ENCODE_SAMPLE (R71): the predictor takes the value in both branches. -/
def execEncodeSample (value : Byte) (s : State) : Host.Outcome State Fault Refusal :=
  .next ({ s with pred := value }.respond (.code (encodeValue s.pred value)))

/-- DECODE_SAMPLE (R72): the predictor takes the reconstructed value; out of 0..255 it raises DeltaOutOfRange and
leaves the predictor as it was (R76). -/
def execDecodeSample (code : Code) (s : State) : Host.Outcome State Fault Refusal :=
  match decodeValue s.pred code with
  | none => .next (s.raise .deltaOutOfRange)
  | some v => .next ({ s with pred := v }.respond (.sample v))

end Sys2Proof.Machine
end

