-- ==== Sys2Proof/Machine/Sequencer.lean ====
section
/-! DEFINITION. A FrameCodec run over its working registers (R18, R105) and its sequencer (R84), shared by ENCODE,
DECODE, the wire formats and `step`. -/

namespace Sys2Proof.Machine

/-- R105: a DECODE starts with its reader bound to the request's buffer. -/
def Fc.startDecode (buf : List Byte) : Fc := { Fc.reset with buf := buf }

/-- R18, R80: an ENCODE starts with width, height and count from the validated request, and a reset BitWriter. -/
def Fc.startEncode (img : Image) : Fc :=
  { Fc.reset with
    width := img.width, height := img.height, count := img.width.toNat * img.height.toNat, pixels := img.pixels }

/-- R82 steps 1 to 3: width, height, count, the cursor at 32, and the sequencer at (red, 0). -/
def Fc.takeHeader (f : Fc) (w h : Half) : Fc :=
  { f with
    headerDone := true, width := w, height := h, count := w.toNat * h.toNat, cur := Config.curInit,
    ch := some .red, idx := 0 }

/-- R80 step 1: the two header fields enter the private writer; the sequencer stands at (red, 0). -/
def Fc.emitHeader (f : Fc) : Fc :=
  { f with
    headerDone := true, ch := some .red, idx := 0,
    bw := (f.bw.appendUint f.width.toNat Config.dimBits).appendUint f.height.toNat Config.dimBits }

/-- R84: `if FC.idx = 0: dcc.CH_RESET()`. -/
def Fc.openChannel (f : Fc) : Fc := if f.idx = 0 then { f with pred := Config.predInit } else f

/-- R84: the channel in which the next sample is due; none when the channel is complete or all are done. -/
def Fc.dueChannel (f : Fc) : Option Channel :=
  match f.ch with
  | none => none
  | some c => if f.headerDone && decide (f.idx < f.count) then some c else none

/-- R82, the loop's body after PARSE: DECODE_SAMPLE of the code, the value appended to its channel, the cursor moved by
the code's length; DeltaOutOfRange ends the run (R83). -/
def Fc.consume (f : Fc) (c : Channel) (code : Code) : Progress :=
  match decodeValue f.openChannel.pred code with
  | none => .finished (.error .deltaOutOfRange)
  | some v =>
    .running { f with
      pred := v, chan := f.chan.push c v, cur := f.cur + codeLength code, idx := f.idx + 1 }

/-- R80, the sample an ENCODE codes next: `pixels[i][c]`. -/
def Fc.dueSample (f : Fc) (c : Channel) : Option Byte := (f.pixels[f.idx]?).map fun px => component px c

/-- R80, the loop's body: ENCODE_SAMPLE of the sample, SER of its code appended to the private writer. -/
def Fc.emit (f : Fc) (x : Byte) : Fc :=
  { f with pred := x, bw := f.bw.append (ser (encodeValue f.openChannel.pred x)), idx := f.idx + 1 }

/-- R84: past the last sample of a channel, the next channel from its sample 0; the predictor is reset there too when
the channel has no sample. -/
def Fc.nextChannel (f : Fc) (c : Channel) : Fc :=
  { f.openChannel with ch := Machine.nextChannel c, idx := 0 }

/-- The response of a run whose three channels are done: the image of R82 step 4, the buffer of R80 step 3. -/
def Fc.result (f : Fc) : RunKind → Response
  | .decode => .image f.width f.height (zipPixels f.chan.red f.chan.green f.chan.blue)
  | .encode => .buffer f.bw.finalize.out

/-- R84: one sample of channel c. A run whose image lacks the pixel (none does: R81) stands still. -/
def Fc.sample (f : Fc) (c : Channel) : RunKind → Progress
  | .decode =>
    match parse f.buf f.cur with
    | none => .finished (.error .truncatedBuffer)
    | some (code, _) => f.consume c code
  | .encode =>
    match f.dueSample c with
    | none => .running f
    | some x => .running (f.emit x)

/-- R84: one iteration of the sequencer, after the header. -/
def Fc.tick (f : Fc) (k : RunKind) : Progress :=
  match f.ch with
  | none => .finished (f.result k)
  | some c => if f.idx < f.count then f.sample c k else .running (f.nextChannel c)

/-- The sequencer run to its end: at most `fuel` iterations. -/
def Fc.drive : Nat → Fc → RunKind → Option Response
  | 0, _, _ => none
  | fuel + 1, f, k =>
    match f.tick k with
    | .finished r => some r
    | .running g => Fc.drive fuel g k

/-- R84: 3 x count samples, three changes of channel and the end. -/
def Fc.fuel (f : Fc) : Nat := 3 * f.count + 4

/-- A run past its header, run to its response (R79: a function of the run's own registers). -/
def Fc.complete (f : Fc) (k : RunKind) : Option Response := Fc.drive f.fuel f k

end Sys2Proof.Machine
end

