-- ==== Sys2Proof/Machine/FrameCodec.lean ====
section
/-! DEFINITION. The FrameCodec's operations: 43_frame_codec.md. Each works on registers of its own, freshly reset, and is
one atomic step for the caller (R8, R79); the caller-visible units are neither read nor written. -/

namespace Sys2Proof.Machine

/-- The caller receives a completed run's response. -/
def State.answer (s : State) : Option Response → Host.Outcome State Fault Refusal
  | none => .fault .sequencerStuck
  | some r => .next (s.respond r)

/-- ENCODE (R80, R81). -/
def execEncode (width height : Int) (pixels : List RawPixel) (s : State) : Host.Outcome State Fault Refusal :=
  match validate width height pixels with
  | .error k => .next (s.raise k)
  | .ok img => s.answer ((Fc.startEncode img).emitHeader.complete .encode)

/-- DECODE (R82, R83). -/
def execDecode (buf : List Byte) (s : State) : Host.Outcome State Fault Refusal :=
  match decodeHeader buf with
  | none => .next (s.raise .truncatedBuffer)
  | some (w, h) => s.answer (((Fc.startDecode buf).takeHeader w h).complete .decode)

end Sys2Proof.Machine
end

