-- ==== Sys2Proof/Machine/WireFormat.lean ====
section
/-! DEFINITION. The wire formats HDR, LIT, DLT as the items of a FrameCodec run (30_encoding.md): a DECODE run consumes
them (R82), an ENCODE run produces them (R80). Outside a run they have no meaning (R2, R9). -/

namespace Sys2Proof.Machine

/-- A per-sample code met by the run in progress: decoded (R72, R82) or, when it is the code of the sample due, produced
(R71, R80; the encoder uses one code per predictor and value, R50). -/
def runCode (code : Code) (s : State) : Host.Outcome State Fault Refusal :=
  match s.run with
  | none => .refused .noRun
  | some k =>
    match s.fc.dueChannel with
    | none => .refused .notDue
    | some c =>
      match k with
      | .decode => .next (s.progress (s.fc.consume c code))
      | .encode =>
        match s.fc.dueSample c with
        | none => .refused .notProduced
        | some x =>
          if encodeValue s.fc.openChannel.pred x = code then .next { s with fc := s.fc.emit x }
          else .refused .notProduced

/-- HDR (R45): step 1 of the run in progress. -/
def execHdr (width height : Half) (s : State) : Host.Outcome State Fault Refusal :=
  match s.run with
  | none => .refused .noRun
  | some k =>
    if s.fc.headerDone then .refused .notDue
    else
      match k with
      | .decode => .next { s with fc := s.fc.takeHeader width height }
      | .encode =>
        if s.fc.width = width ∧ s.fc.height = height then .next { s with fc := s.fc.emitHeader }
        else .refused .notProduced

/-- LIT (R41). -/
def execLit (v : Byte) (s : State) : Host.Outcome State Fault Refusal := runCode (.lit v) s

/-- DLT (R42). -/
def execDlt (sign : Bit) (m : BitVec 3) (s : State) : Host.Outcome State Fault Refusal := runCode (.dlt sign m) s

end Sys2Proof.Machine
end

