-- ==== Sys2Proof/Machine/Dispatch.lean ====
section
/-! DEFINITION. The dispatch: one arm per instruction, each one call of its meaning. -/

namespace Sys2Proof.Machine

def exec (i : Instr) (s : State) : Host.Outcome State Fault Refusal :=
  match i with
  | .hdr width height => Sys2Proof.Machine.execHdr width height s
  | .lit v => Sys2Proof.Machine.execLit v s
  | .dlt sign m => Sys2Proof.Machine.execDlt sign m s
  | .append bits => Sys2Proof.Machine.execAppend bits s
  | .finalize => Sys2Proof.Machine.execFinalize s
  | .read buf bitOffset length => Sys2Proof.Machine.execRead buf bitOffset length s
  | .chReset => Sys2Proof.Machine.execChReset s
  | .encodeSample value => Sys2Proof.Machine.execEncodeSample value s
  | .decodeSample code => Sys2Proof.Machine.execDecodeSample code s
  | .encode width height pixels => Sys2Proof.Machine.execEncode width height pixels s
  | .decode buf => Sys2Proof.Machine.execDecode buf s

end Sys2Proof.Machine
end

