-- ==== Sys2Proof/Machine/Fetch.lean ====
section
/-! DEFINITION. What a step finds to do: the caller's next request while no run is in progress (R8), else the next item
or move of that run (R80, R82, R84). And placing an instruction's bits where the next step fetches them. -/

namespace Sys2Proof.Machine

/-- A step of a DECODE run: its header, then per sample the code at the cursor; TruncatedBuffer when a needed bit is
missing (R83); else a move of the sequencer. -/
def fetchDecodeRun (s : State) : Fetched :=
  if s.fc.headerDone then
    match s.fc.dueChannel with
    | some _ =>
      match decode (.codeAt s.fc.buf s.fc.cur) with
      | .ok i => .instr i s
      | .error _ => .internal (s.endRun (.error .truncatedBuffer))
    | none => .internal (s.progress (s.fc.tick .decode))
  else
    match decode (.headerAt s.fc.buf) with
    | .ok i => .instr i s
    | .error _ => .internal (s.endRun (.error .truncatedBuffer))

/-- A step of an ENCODE run: it produces its header, then per sample the sample's code; else a move of the
sequencer. -/
def fetchEncodeRun (s : State) : Fetched :=
  if s.fc.headerDone then
    match s.fc.dueChannel with
    | some c =>
      match s.fc.dueSample c with
      | some x => .instr (encodeValue s.fc.openChannel.pred x).instr s
      | none => .internal (s.progress (s.fc.tick .encode))
    | none => .internal (s.progress (s.fc.tick .encode))
  else .instr (.hdr s.fc.width s.fc.height) s

/-- The caller's next request, taken off the port and decoded; one without a meaning is refused (R9, R103). -/
def fetchRequest (s : State) : Fetched :=
  match s.requests with
  | [] => .refuse .noRequest
  | q :: rest =>
    match decode (.request q) with
    | .ok i => .instr i { s with requests := rest }
    | .error e => .refuse (.badRequest e)

/-- What the next step does. -/
def fetchNext (s : State) : Fetched :=
  match s.run with
  | none => fetchRequest s
  | some .decode => fetchDecodeRun s
  | some .encode => fetchEncodeRun s

/-- The bits of an encoded instruction stored where the next step fetches: a request at the head of the caller's
requests; a header in the buffer of a DECODE run that has yet to read it; a code at the cursor of a DECODE run of a
1 x 1 image, whose header has been read. -/
def placeEncoded (s : State) : Encoded → State
  | .request q => { s with run := none, requests := q :: s.requests }
  | .headerAt buf => { s with run := some .decode, fc := .startDecode buf }
  | .codeAt buf p =>
    { s with
      run := some .decode,
      fc := { (Fc.startDecode (packBits (headerBits 1#16 1#16) ++ buf)).takeHeader 1#16 1#16 with
        cur := Config.curInit + p } }

end Sys2Proof.Machine
end

