-- ==== Sys2Proof/Machine/Step.lean ====
section
/-! DEFINITION. One step of the machine (R8), and placing a table word where the next step fetches it. -/

namespace Sys2Proof.Machine

/-- One step: the fetched instruction's meaning, a move of the run in progress, or a refusal. -/
def step (s : State) : Host.Outcome State Fault Refusal :=
  match fetchNext s with
  | .instr i t => exec i t
  | .internal t => .next t
  | .refuse r => .refused r

/-- `s` with a table row's bits stored where `step` fetches its next instruction; bits that are no row's are no
instruction and change nothing. -/
def State.withFetchWord (s : State) (nbits w : Nat) : State :=
  match encodedOfTableWord nbits w with
  | none => s
  | some e => placeEncoded s e

end Sys2Proof.Machine
end

