-- ==== Sys2Proof/Safety.lean ====
section
/-! DEFINITION. The terms the statements use: the invariant of the machine, running a list of instructions, and the
frame and its decoding written as the loops of 30_encoding.md rule R46 and 43_frame_codec.md rule R82. -/

namespace Sys2Proof.Machine

/-- The instructions run one after the other, stopping at the first fault or refusal (R36 (a)). -/
def execList : List Instr → State → Host.Outcome State Fault Refusal
  | [], s => .next s
  | i :: rest, s =>
    match exec i s with
    | .next t => execList rest t
    | .fault f => .fault f
    | .refused r => .refused r

/-- Whether an instruction is one of the eight operations a caller can request (R2), not a wire format. -/
def isOperation : Instr → Bool
  | .hdr _ _ => false
  | .lit _ => false
  | .dlt _ _ => false
  | .append _ => true
  | .finalize => true
  | .read _ _ _ => true
  | .chReset => true
  | .encodeSample _ => true
  | .decodeSample _ => true
  | .encode _ _ _ => true
  | .decode _ => true

/-- The error kinds an operation may raise (R86). -/
def mayRaise : Instr → ErrorKind → Bool
  | .hdr _ _, _ => false
  | .lit _, _ => false
  | .dlt _ _, _ => false
  | .append _, _ => false
  | .finalize, _ => false
  | .read _ _ _, k => decide (k = .truncatedBuffer)
  | .chReset, _ => false
  | .encodeSample _, _ => false
  | .decodeSample _, k => decide (k = .deltaOutOfRange)
  | .encode _ _ _, k => decide (k = .invalidDimension) || decide (k = .outOfRangeSample)
  | .decode _, k => decide (k = .truncatedBuffer) || decide (k = .deltaOutOfRange)

/-- A pixel as an ENCODE request presents it (R10). -/
def rawPixel (px : Pixel) : RawPixel :=
  { red := (px.red.toNat : Int), green := (px.green.toNat : Int), blue := (px.blue.toNat : Int) }

/-- The ENCODE request of an image (R85 (a)). -/
def encodeImage (w h : Half) (pixels : List Pixel) : Instr :=
  .encode (w.toNat : Int) (h.toNat : Int) (pixels.map rawPixel)

/-- The codes of one channel's values from a predictor (R71): the predictor is always the preceding value. -/
def channelCodes : Byte → List Byte → List Code
  | _, [] => []
  | pred, x :: xs => encodeValue pred x :: channelCodes x xs

/-- R46: the channel substream of channel c. -/
def channelBits (c : Channel) (pixels : List Pixel) : List Bit :=
  (channelCodes Config.predInit (pixels.map fun px => component px c)).flatMap ser

/-- R46: the bits of a frame before padding, `HDR ++ S_red ++ S_green ++ S_blue`. -/
def frameBits (w h : Half) (pixels : List Pixel) : List Bit :=
  headerBits w h ++ channelBits .red pixels ++ channelBits .green pixels ++ channelBits .blue pixels

/-- R82, the inner loop: `n` samples from cursor and predictor; the values and the final cursor, or the first error. -/
def decodeSamples (buf : List Byte) : Nat → Nat → Byte → Except ErrorKind (List Byte × Nat)
  | 0, cur, _ => .ok ([], cur)
  | n + 1, cur, pred =>
    match parse buf cur with
    | none => .error .truncatedBuffer
    | some (code, nbits) =>
      match decodeValue pred code with
      | none => .error .deltaOutOfRange
      | some v =>
        match decodeSamples buf n (cur + nbits) v with
        | .error k => .error k
        | .ok (vs, cur') => .ok (v :: vs, cur')

/-- R82, the outer loop: red, green, blue, each from predictor 0, the cursor running on; the three sequences. -/
def decodeChannels (buf : List Byte) (count : Nat) : Except ErrorKind ChannelSeqs :=
  match decodeSamples buf count Config.curInit Config.predInit with
  | .error k => .error k
  | .ok (red, cur1) =>
    match decodeSamples buf count cur1 Config.predInit with
    | .error k => .error k
    | .ok (green, cur2) =>
      match decodeSamples buf count cur2 Config.predInit with
      | .error k => .error k
      | .ok (blue, _) => .ok { red := red, green := green, blue := blue }

/-- R82: the response of DECODE, written as its loops. -/
def decodeFrame (buf : List Byte) : Response :=
  match readBits buf 0 16, readBits buf 16 16 with
  | some w, some h =>
    match decodeChannels buf (w * h) with
    | .error k => .error k
    | .ok cs => .image (BitVec.ofNat 16 w) (BitVec.ofNat 16 h) (zipPixels cs.red cs.green cs.blue)
  | _, _ => .error .truncatedBuffer

/-- How many samples of channel c a run has done (R84): all of a channel before `FC.ch`, `FC.idx` of `FC.ch` itself,
none of a channel after it. -/
def Fc.samplesDone (f : Fc) : Channel → Nat
  | .red => if f.ch = some .red then f.idx else f.count
  | .green => if f.ch = some .red then 0 else if f.ch = some .green then f.idx else f.count
  | .blue => if f.ch = some .red ∨ f.ch = some .green then 0 else if f.ch = some .blue then f.idx else f.count

/-- How many samples a run has done in all. -/
def Fc.totalDone (f : Fc) : Nat := f.samplesDone .red + f.samplesDone .green + f.samplesDone .blue

/-- A run past its header: count is width x height, idx is at most count (R18), and a stream position (the cursor of a
DECODE, the writer position of an ENCODE) that has moved by 5 or 9 per sample from 32 (R19, R20). -/
def Fc.positioned (f : Fc) (pos : Nat) : Prop :=
  f.count = f.width.toNat * f.height.toNat ∧ f.idx ≤ f.count ∧
    Config.curInit + Config.dltBits * f.totalDone ≤ pos ∧ pos ≤ Config.curInit + Config.litBits * f.totalDone

/-- The working registers of a run are those the rules give it at some point (R18, R24, R105). -/
def Fc.lawful (f : Fc) : Option RunKind → Prop
  | none => f = Fc.reset
  | some .decode =>
    if f.headerDone then
      f.positioned f.cur ∧ (∀ c, (f.chan.get c).length = f.samplesDone c)
    else f = Fc.startDecode f.buf
  | some .encode =>
    f.pixels.length = f.width.toNat * f.height.toNat ∧
      (if f.headerDone then f.positioned f.bw.pos
      else f = Fc.startEncode { width := f.width, height := f.height, pixels := f.pixels })

/-- The invariant of the machine: both BitWriters hold at most 7 bits outside whole bytes (R13), and the FrameCodec's
registers are lawful: at their reset values while no run is in progress (R18, R24), else those of a run. -/
def State.Inv (s : State) : Prop :=
  s.bw.part.length ≤ 7 ∧ s.fc.bw.part.length ≤ 7 ∧ s.fc.lawful s.run

end Sys2Proof.Machine
end

