-- ==== Sys2Proof/Certificates/Slice0/Obligations.lean ====
section
/-! DEFINITION. The statements for the provers. A statement marked "spec's own" in its docstring rests on a sentence the
spec marks as its decision or derivation. -/

open Sys2Proof Sys2Proof.Machine

-- Reset and the invariant

/-- R24, R104: the reset values the spec gives (the power-on clause is the spec's own, D15). -/
def Obligations.ResetHoldsTheSpecsValues : Prop :=
  State.reset.bw.part = [] ∧ State.reset.bw.out = [] ∧ State.reset.bw.cnt = 0#3 ∧ State.reset.bw.acc = 0#8 ∧
    State.reset.pred = 0#8 ∧ State.reset.run = none ∧ State.reset.fc.ch = some .red ∧ State.reset.fc.idx = 0 ∧
    State.reset.fc.cur = 32 ∧ State.reset.fc.chan.red = [] ∧ State.reset.fc.chan.green = [] ∧
    State.reset.fc.chan.blue = [] ∧ State.reset.fc.bw.part = [] ∧ State.reset.fc.bw.out = [] ∧
    State.reset.fc.pred = 0#8

/-- The invariant holds at reset. -/
def Obligations.ResetIsLawful : Prop := State.reset.Inv

/-- R13, R18, R19, R20, R24: every step keeps the invariant, from every state that meets it. -/
def Obligations.StepKeepsLawful : Prop :=
  ∀ s t : State, s.Inv → step s = .next t → t.Inv

-- The step

/-- R8: with no run in progress a step takes the caller's next request off the port and runs its operation. -/
def Obligations.StepRunsTheRequest : Prop :=
  ∀ (s : State) (q : Request) (rest : List Request) (i : Instr),
    s.run = none → s.requests = q :: rest → decode (.request q) = .ok i →
    step s = exec i { s with requests := rest }

/-- R80, R82, R84: a step of a run runs the run's next item: of a DECODE the header, then the code at the cursor; of an
ENCODE the header, then the code of the sample due. -/
def Obligations.StepRunsTheItemOfTheRun : Prop :=
  (∀ (s : State) (i : Instr), s.run = some .decode → s.fc.headerDone = false →
      decode (.headerAt s.fc.buf) = .ok i → step s = exec i s) ∧
    (∀ (s : State) (c : Channel) (i : Instr), s.run = some .decode → s.fc.headerDone = true → s.fc.ch = some c →
      s.fc.idx < s.fc.count → decode (.codeAt s.fc.buf s.fc.cur) = .ok i → step s = exec i s) ∧
    (∀ s : State, s.run = some .encode → s.fc.headerDone = false →
      step s = exec (.hdr s.fc.width s.fc.height) s) ∧
    (∀ (s : State) (c : Channel) (px : Pixel), s.run = some .encode → s.fc.headerDone = true → s.fc.ch = some c →
      s.fc.idx < s.fc.count → s.fc.pixels[s.fc.idx]? = some px →
      step s = exec (encodeValue (if s.fc.idx = 0 then 0#8 else s.fc.pred) (component px c)).instr s)

/-- R83: a run whose next item lacks a bit of the buffer ends, with the response TruncatedBuffer and nothing else. -/
def Obligations.StepEndsATruncatedDecode : Prop :=
  (∀ s : State, s.run = some .decode → s.fc.headerDone = false → s.fc.buf.length < 4 →
      step s = .next { s with
        run := none, fc := Fc.reset, responses := .error .truncatedBuffer :: s.responses }) ∧
    (∀ (s : State) (c : Channel), s.run = some .decode → s.fc.headerDone = true → s.fc.ch = some c →
      s.fc.idx < s.fc.count → parse s.fc.buf s.fc.cur = none →
      step s = .next { s with
        run := none, fc := Fc.reset, responses := .error .truncatedBuffer :: s.responses })

/-- R8: "nothing in the hardware steps without a request"; that the model says so by a refusal is its choice (log 1). -/
def Obligations.StepWithoutARequestIsRefused : Prop :=
  ∀ s : State, s.run = none → s.requests = [] → step s = .refused .noRequest

/-- R54 (spec's own, D3): the eight command codes that select nothing are refused. -/
def Obligations.UnassignedCommandCodeIsRefused : Prop :=
  ∀ (s : State) (q : Request) (rest : List Request), s.run = none → s.requests = q :: rest →
    q.code ∈ [0b0010#4, 0b0011#4, 0b0101#4, 0b0110#4, 0b0111#4, 0b1011#4, 0b1110#4, 0b1111#4] →
    step s = .refused (.badRequest (.unassignedCode q.code))

/-- R103 (spec's own, D8, D28): READ with a length outside 1..16, READ or DECODE with no buffer bound, ENCODE_SAMPLE of
a value above 255 and DECODE_SAMPLE of bits that spell no code are refused. -/
def Obligations.RequestOutsideItsTypesIsRefused : Prop :=
  ∀ (s : State) (q : Request) (rest : List Request), s.run = none → s.requests = q :: rest →
    (q.code = 0b0100#4 → q.length = 0 ∨ 16 < q.length → step s = .refused (.badRequest .readLength)) ∧
    (q.code = 0b0100#4 → 1 ≤ q.length ∧ q.length ≤ 16 → q.buf = none →
      step s = .refused (.badRequest .noBufferBound)) ∧
    (q.code = 0b1101#4 → q.buf = none → step s = .refused (.badRequest .noBufferBound)) ∧
    (q.code = 0b1001#4 → 255 < q.value → step s = .refused (.badRequest .sampleWidth)) ∧
    (q.code = 0b1010#4 → (∀ c : Code, q.sample ≠ ser c) → step s = .refused (.badRequest .notACode))

/-- R8, D1: for the caller a request is one atomic step: it leaves no run in progress and no run register changed, takes
exactly one request and gives exactly one response (R9). -/
def Obligations.RequestIsAtomic : Prop :=
  ∀ s t : State, s.run = none → step s = .next t →
    t.run = none ∧ t.fc = s.fc ∧ (∃ q, s.requests = q :: t.requests) ∧ (∃ r, t.responses = r :: s.responses)

/-- R18, R23 (D2): while a run is in progress no step touches the caller-visible units or takes a request, and the run
gives a response exactly when it ends. -/
def Obligations.RunLeavesTheCallersUnits : Prop :=
  ∀ s t : State, s.run ≠ none → step s = .next t →
    t.bw = s.bw ∧ t.pred = s.pred ∧ t.requests = s.requests ∧
      ((t.run = s.run ∧ t.responses = s.responses) ∨
        (t.run = none ∧ t.fc = Fc.reset ∧ ∃ r, t.responses = r :: s.responses))

/-- R12: no step removes, reorders or changes a byte already in `BW.out`. -/
def Obligations.OutputBufferOnlyGrows : Prop :=
  ∀ s t : State, step s = .next t → s.bw.out <+: t.bw.out

/-- R84, Termination: no instruction and no step faults, in any state. -/
def Obligations.NothingFaults : Prop :=
  (∀ (i : Instr) (s : State) (f : Fault), exec i s ≠ .fault f) ∧ ∀ (s : State) (f : Fault), step s ≠ .fault f

-- Errors

/-- R86, R90: an operation raises only the kinds the table of R86 gives it; RoundTripMismatch is given to none. -/
def Obligations.OperationsRaiseOnlyTheirKinds : Prop :=
  ∀ (i : Instr) (s t : State) (k : ErrorKind), isOperation i = true → exec i s = .next t →
    t.responses = .error k :: s.responses → mayRaise i k = true ∧ k ≠ .roundTripMismatch

/-- R91 (spec's own, D12): an operation that raises an error changes nothing but to give that response. -/
def Obligations.ErrorChangesNoRegister : Prop :=
  ∀ (i : Instr) (s t : State) (k : ErrorKind), isOperation i = true → exec i s = .next t →
    t.responses = .error k :: s.responses → t = { s with responses := .error k :: s.responses }

-- Encodings

/-- The decoder reads back every well-formed instruction the encoder writes, with every operand. -/
def Obligations.DecodeInvertsEncode : Prop :=
  ∀ i : Instr, i.wellFormed = true → decode (encode i) = .ok i

/-- R67, R103: whatever the decoder answers is well formed. -/
def Obligations.DecodedInstructionIsWellFormed : Prop :=
  ∀ (e : Encoded) (i : Instr), decode e = .ok i → i.wellFormed = true

/-- A few words written out from the spec's encodings (R41, R42, R45, R53) decode to what they stand for. -/
def Obligations.WrittenWordsDecode : Prop :=
  decode (.codeAt [0b00001010#8, 0b10000000#8] 0) = .ok (.lit 21#8) ∧
    decode (.codeAt [0b11000000#8] 0) = .ok (.dlt true 0#3) ∧
    decode (.codeAt [0b00010011#8] 3) = .ok (.dlt false 3#3) ∧
    decode (.headerAt [0x03#8, 0x00#8, 0x02#8, 0x00#8]) = .ok (.hdr 768#16 512#16) ∧
    decodeTableWord 8 0b1000 = some .chReset ∧ decodeTableWord 16 0b011111111 = some (.lit 255#8)

/-- R41, R42: the bit patterns of LIT and DLT, and what DLT's fields are. -/
def Obligations.CodesAreSpelledAsTheirFormats : Prop :=
  (∀ v : Byte, ser (.lit v) =
      [false, v.getLsbD 7, v.getLsbD 6, v.getLsbD 5, v.getLsbD 4, v.getLsbD 3, v.getLsbD 2, v.getLsbD 1,
        v.getLsbD 0]) ∧
    (∀ (s : Bit) (m : BitVec 3), ser (.dlt s m) = [true, s, m.getLsbD 2, m.getLsbD 1, m.getLsbD 0]) ∧
    ∀ (s : Bit) (m : BitVec 3), -8 ≤ codeDelta s m ∧ codeDelta s m ≤ 7 ∧ (s = true ↔ codeDelta s m < 0)

/-- R45: the header's 32 bits, its four bytes, and that every width and height is read back. -/
def Obligations.HeaderIsWidthThenHeight : Prop :=
  ∀ w h : Half,
    (headerBits w h).length = 32 ∧
    (∀ p, p < 16 → (headerBits w h)[p]? = some (w.getLsbD (15 - p))) ∧
    (∀ p, p < 16 → (headerBits w h)[16 + p]? = some (h.getLsbD (15 - p))) ∧
    packBits (headerBits w h) =
      [BitVec.ofNat 8 (w.toNat / 256), BitVec.ofNat 8 (w.toNat % 256), BitVec.ofNat 8 (h.toNat / 256),
        BitVec.ofNat 8 (h.toNat % 256)] ∧
    ∀ rest : List Byte, decode (.headerAt (packBits (headerBits w h) ++ rest)) = .ok (.hdr w h)

/-- R43: the delta table, both ways. -/
def Obligations.DeltaFieldsAreABijection : Prop :=
  (∀ d : Int, -8 ≤ d → d ≤ 7 →
      (deltaSign d = true ↔ d < 0) ∧ ((deltaMagnitude d).toNat : Int) = d % 8 ∧
        codeDelta (deltaSign d) (deltaMagnitude d) = d) ∧
    (∀ (s : Bit) (m : BitVec 3),
      (s = true → codeDelta s m = (m.toNat : Int) - 8) ∧ (s = false → codeDelta s m = (m.toNat : Int)) ∧
        deltaSign (codeDelta s m) = s ∧ deltaMagnitude (codeDelta s m) = m) ∧
    deltaMagnitude (-1) = 7#3 ∧ deltaMagnitude (-8) = 0#3

/-- R44 (spec's own, derived): sign and magnitude are the 4-bit two's-complement pattern of the delta. -/
def Obligations.DeltaFieldsAreTwosComplement : Prop :=
  ∀ (s : Bit) (m : BitVec 3),
    (uint (s :: bitsN 3 m.toNat) : Int) = codeDelta s m % 16 ∧
      (BitVec.ofNat 4 (8 * s.toNat + m.toNat)).toInt = codeDelta s m

/-- R74: PARSE is the inverse of SER at any position, whatever stands before and after. -/
def Obligations.ParseInvertsSer : Prop :=
  ∀ (buf : List Byte) (before after : List Bit) (c : Code),
    unpack buf = before ++ ser c ++ after → parse buf before.length = some (c, (ser c).length)

/-- R47, R74: a code PARSE reads is 9 or 5 bits long, its first bit tells which, all its bits are in the buffer, and
they are its spelling. -/
def Obligations.ParsedCodeStandsInTheBuffer : Prop :=
  ∀ (buf : List Byte) (p : Nat) (c : Code) (n : Nat), parse buf p = some (c, n) →
    n = (ser c).length ∧ p + n ≤ 8 * buf.length ∧ ((unpack buf).drop p).take n = ser c ∧
      ((bitAt buf p = some false ∧ n = 9) ∨ (bitAt buf p = some true ∧ n = 5))

/-- R47, R74, R83: PARSE fails exactly when the code's flag is beyond the buffer or the code it begins does not fit. -/
def Obligations.ParseFailsOnlyWhenTruncated : Prop :=
  ∀ (buf : List Byte) (p : Nat),
    parse buf p = none ↔
      8 * buf.length ≤ p ∨ (bitAt buf p = some false ∧ 8 * buf.length < p + 9) ∨
        (bitAt buf p = some true ∧ 8 * buf.length < p + 5)

-- The buffer and the BitReader

/-- R26: stream position p is bit 7 - (p mod 8) of byte p div 8, and `bit(buf, p) = unpack(buf)[p]`. -/
def Obligations.StreamPositionIsMsbFirst : Prop :=
  ∀ (buf : List Byte) (p : Nat), p < 8 * buf.length →
    ∃ b : Byte, buf[p / 8]? = some b ∧ bitAt buf p = some (b.getLsbD (7 - p % 8)) ∧
      (unpack buf)[p]? = some (b.getLsbD (7 - p % 8)) ∧ (unpack buf).length = 8 * buf.length

/-- R28: a read of n bits at p is the sum of its bits, the first one most significant; beyond the buffer it has no
value. -/
def Obligations.BitReadIsTheSumOfItsBits : Prop :=
  ∀ (buf : List Byte) (p n : Nat),
    (p + n ≤ 8 * buf.length →
      readBits buf p n = some (bitRead buf p n) ∧ bitRead buf p n = uint (((unpack buf).drop p).take n) ∧
        bitRead buf p n = ∑ i ∈ Finset.range n, ((bitAt buf (p + i)).getD false).toNat * 2 ^ (n - 1 - i)) ∧
    (8 * buf.length < p + n → readBits buf p n = none) ∧ bitRead buf p 0 = 0

/-- R29 (spec's own, derived): a read splits anywhere. -/
def Obligations.BitReadSplits : Prop :=
  ∀ (buf : List Byte) (p a b : Nat), p + a + b ≤ 8 * buf.length →
    bitRead buf p (a + b) = bitRead buf p a * 2 ^ b + bitRead buf (p + a) b

/-- R64, R66 (the port's width is the spec's own, D8): READ returns the value, changes no register, and the value fits
the length. -/
def Obligations.ReadReturnsTheBits : Prop :=
  ∀ (buf : List Byte) (bitOffset length : Nat) (s : State), 1 ≤ length → length ≤ 16 →
    bitOffset + length ≤ 8 * buf.length →
    ∃ v : Half, exec (.read buf bitOffset length) s = .next { s with responses := .value v :: s.responses } ∧
      v.toNat = uint (((unpack buf).drop bitOffset).take length) ∧ v.toNat < 2 ^ length

/-- R65: a READ that needs a bit beyond the buffer fails with TruncatedBuffer and returns nothing else; an empty buffer
fails every READ. -/
def Obligations.ReadBeyondTheBufferFails : Prop :=
  ∀ (buf : List Byte) (bitOffset length : Nat) (s : State), 1 ≤ length → length ≤ 16 →
    (8 * buf.length < bitOffset + length →
      exec (.read buf bitOffset length) s = .next { s with responses := .error .truncatedBuffer :: s.responses }) ∧
    exec (.read [] bitOffset length) s = .next { s with responses := .error .truncatedBuffer :: s.responses }

/-- R67 (spec's own, D8): a READ of 0 bits or of more than 16 is refused, whatever the buffer. -/
def Obligations.ReadOfABadLengthIsRefused : Prop :=
  ∀ (buf : List Byte) (bitOffset length : Nat) (s : State), length = 0 ∨ 16 < length →
    exec (.read buf bitOffset length) s = .refused .readLength

/-- R68 (b), (c) (spec's own, derived): a READ that succeeds splits into READs that succeed, and every READ inside it
succeeds. -/
def Obligations.ReadsInsideAReadSucceed : Prop :=
  ∀ (buf : List Byte) (p n q m : Nat) (s : State) (v : Half), 1 ≤ m → p ≤ q → q + m ≤ p + n →
    exec (.read buf p n) s = .next { s with responses := .value v :: s.responses } →
    ∃ u : Half, exec (.read buf q m) s = .next { s with responses := .value u :: s.responses } ∧
      u.toNat = v.toNat / 2 ^ (p + n - (q + m)) % 2 ^ m

-- The BitWriter

/-- R58: APPEND adds its bits, in order, to the bit stream of the writer; whole bytes are in `BW.out`, at most 7 bits
pend, no byte already out changes, and nothing else does. -/
def Obligations.AppendAddsBitsInOrder : Prop :=
  ∀ (bits : List Bit) (s : State), s.bw.part.length ≤ 7 →
    ∃ w : BitWriter, exec (.append bits) s = .next { s with bw := w, responses := .ok :: s.responses } ∧
      unpack w.out ++ w.part = unpack s.bw.out ++ s.bw.part ++ bits ∧ w.part.length ≤ 7 ∧ s.bw.out <+: w.out ∧
      8 * w.out.length + w.part.length = 8 * s.bw.out.length + s.bw.part.length + bits.length

/-- R59: FINALIZE emits a pending partial byte with its bits high and zeros below, leaves nothing pending, returns all
of `BW.out`, and changes nothing else. -/
def Obligations.FinalizePadsAndReturnsTheBuffer : Prop :=
  ∀ s : State, s.bw.part.length ≤ 7 →
    ∃ w : BitWriter, exec .finalize s = .next { s with bw := w, responses := .buffer w.out :: s.responses } ∧
      w.part = [] ∧ (s.bw.part = [] → w.out = s.bw.out) ∧
      (s.bw.part ≠ [] → ∃ b : Byte, w.out = s.bw.out ++ [b] ∧
        unpack [b] = s.bw.part ++ List.replicate (8 - s.bw.part.length) false)

/-- R60: after a FINALIZE, any further FINALIZEs, with empty APPENDs between them, leave the writer as it is and return
the same buffer. -/
def Obligations.FinalizeIsIdempotent : Prop :=
  ∀ s : State, ∃ t : State, exec .finalize s = .next t ∧ t.responses = .buffer t.bw.out :: s.responses ∧
    ∀ ops : List Instr, (∀ i ∈ ops, i = .finalize ∨ i = .append []) →
      ∃ u : State, execList ops t = .next u ∧ u.bw = t.bw ∧
        exec .finalize u = .next { u with responses := .buffer t.bw.out :: u.responses }

/-- R62 (a) to (d) (spec's own, derived): concatenation, position, flush and read-back. -/
def Obligations.AppendObeysItsLaws : Prop :=
  (∀ (a b : List Bit) (s : State), ∃ w : BitWriter,
      execList [.append a, .append b] s = .next { s with bw := w, responses := .ok :: .ok :: s.responses } ∧
        exec (.append (a ++ b)) s = .next { s with bw := w, responses := .ok :: s.responses }) ∧
    ∀ (stream : List Bit) (s : State), s.bw.part = [] → s.bw.out = [] →
      ∃ t u : State, exec (.append stream) s = .next t ∧ exec .finalize t = .next u ∧
        t.bw.out.length = stream.length / 8 ∧ t.bw.part.length = stream.length % 8 ∧
        unpack t.bw.out = stream.take (8 * (stream.length / 8)) ∧
        t.bw.part = stream.drop (8 * (stream.length / 8)) ∧
        u.bw.out.length = (stream.length + 7) / 8 ∧
        unpack u.bw.out = stream ++ List.replicate ((8 - stream.length % 8) % 8) false ∧
        ∀ p n, p + n ≤ stream.length → readBits u.bw.out p n = some (uint ((stream.drop p).take n))

/-- R63, R107 (spec's own, derived, D14): bits appended after a FINALIZE start a new byte after the pad, which stays. -/
def Obligations.AppendAfterFinalizeStartsANewByte : Prop :=
  ∀ (bits : List Bit) (s : State), s.bw.part.length ≤ 7 →
    ∃ t : State, execList [.finalize, .append bits] s = .next t ∧
      unpack t.bw.out ++ t.bw.part =
        unpack s.bw.out ++ s.bw.part ++ List.replicate ((8 - s.bw.part.length) % 8) false ++ bits ∧
      t.bw.part.length = bits.length % 8

/-- R14 (spec's own, D4): APPEND of one bit and FINALIZE on the registers `BW.cnt` and `BW.acc`. -/
def Obligations.RegisterFormOfTheWriter : Prop :=
  (∀ (b : Bit) (s : State), s.bw.part.length < 7 →
      ∃ w : BitWriter, exec (.append [b]) s = .next { s with bw := w, responses := .ok :: s.responses } ∧
        w.out = s.bw.out ∧ w.cnt = s.bw.cnt + 1#3 ∧
        w.acc = s.bw.acc ||| ((BitVec.ofBool b).zeroExtend 8 <<< (7 - s.bw.cnt.toNat))) ∧
    (∀ (b : Bit) (s : State), s.bw.part.length = 7 →
      ∃ w : BitWriter, exec (.append [b]) s = .next { s with bw := w, responses := .ok :: s.responses } ∧
        w.out = s.bw.out ++ [s.bw.acc ||| (BitVec.ofBool b).zeroExtend 8] ∧ w.cnt = 0#3 ∧ w.acc = 0#8) ∧
    ∀ s : State, 1 ≤ s.bw.part.length → s.bw.part.length ≤ 7 →
      exec .finalize s = .next { s with
        bw := { part := [], out := s.bw.out ++ [s.bw.acc] },
        responses := .buffer (s.bw.out ++ [s.bw.acc]) :: s.responses }

-- The DeltaChannelCodec

/-- R70: CH_RESET sets the predictor to 0 and touches nothing else; against it a first value 0..7 takes the delta code
and 8..255 the literal code; the FrameCodec does it at sample 0 of a channel, and only there. -/
def Obligations.ChResetZeroesThePredictor : Prop :=
  (∀ s : State, exec .chReset s = .next { s with pred := 0#8, responses := .ok :: s.responses }) ∧
    (∀ v : Byte, (v.toNat ≤ 7 → ∃ sg m, encodeValue 0#8 v = .dlt sg m) ∧ (8 ≤ v.toNat → encodeValue 0#8 v = .lit v)) ∧
    ∀ f : Fc, (f.idx = 0 → f.openChannel = { f with pred := 0#8 }) ∧ (f.idx ≠ 0 → f.openChannel = f)

/-- R71: ENCODE_SAMPLE takes the signed difference before any range check, answers the literal or the delta code, and
sets the predictor to the value in both branches. -/
def Obligations.EncodeSampleChoosesTheCode : Prop :=
  ∀ (x : Byte) (s : State),
    ∃ c : Code, exec (.encodeSample x) s = .next { s with pred := x, responses := .code c :: s.responses } ∧
      ((x.toNat : Int) - s.pred.toNat < -8 ∨ 7 < (x.toNat : Int) - s.pred.toNat → c = .lit x) ∧
      (-8 ≤ (x.toNat : Int) - s.pred.toNat → (x.toNat : Int) - s.pred.toNat ≤ 7 →
        ∃ m : BitVec 3, c = .dlt (decide ((x.toNat : Int) - s.pred.toNat < 0)) m ∧
          (m.toNat : Int) = ((x.toNat : Int) - s.pred.toNat) % 8)

/-- R72: DECODE_SAMPLE of a literal is its value; of a delta code whose sum is 0..255, that sum; the predictor takes the
value in both branches, and nothing else changes. -/
def Obligations.DecodeSampleReconstructsTheValue : Prop :=
  (∀ (v : Byte) (s : State),
      exec (.decodeSample (.lit v)) s = .next { s with pred := v, responses := .sample v :: s.responses }) ∧
    ∀ (sg : Bit) (m : BitVec 3) (v : Byte) (s : State),
      (v.toNat : Int) = s.pred.toNat + (if sg = true then (m.toNat : Int) - 8 else m.toNat) →
      exec (.decodeSample (.dlt sg m)) s = .next { s with pred := v, responses := .sample v :: s.responses }

/-- R76 (spec's own, D9): a delta code that leaves 0..255 raises DeltaOutOfRange and leaves the predictor unchanged. -/
def Obligations.DecodeSampleOutOfRangeRaises : Prop :=
  ∀ (sg : Bit) (m : BitVec 3) (s : State),
    (s.pred.toNat : Int) + (if sg = true then (m.toNat : Int) - 8 else m.toNat) < 0 ∨
      255 < (s.pred.toNat : Int) + (if sg = true then (m.toNat : Int) - 8 else m.toNat) →
    exec (.decodeSample (.dlt sg m)) s = .next { s with responses := .error .deltaOutOfRange :: s.responses }

/-- R75 (spec's own, derived): from CH_RESET on both sides, the codes of any values decode to those values, without an
error, and the predictors agree at the end. -/
def Obligations.ChannelRoundTrips : Prop :=
  ∀ (xs : List Byte) (e d : State),
    ∃ (codes : List Code) (p : Byte),
      execList (.chReset :: xs.map .encodeSample) e =
        .next { e with pred := p, responses := (codes.map Response.code).reverse ++ .ok :: e.responses } ∧
      execList (.chReset :: codes.map .decodeSample) d =
        .next { d with pred := p, responses := (xs.map Response.sample).reverse ++ .ok :: d.responses } ∧
      codes.length = xs.length ∧ p = xs.getLastD 0#8

-- The FrameCodec

/-- R46, R80: ENCODE of a valid image returns the frame HDR, S_red, S_green, S_blue and the least zero padding to a byte
boundary, and changes no register. -/
def Obligations.EncodeReturnsTheFrame : Prop :=
  ∀ (w h : Half) (pixels : List Pixel) (s : State), pixels.length = w.toNat * h.toNat →
    ∃ buf : List Byte,
      exec (encodeImage w h pixels) s = .next { s with responses := .buffer buf :: s.responses } ∧
      unpack buf = frameBits w h pixels ++ List.replicate ((8 - (frameBits w h pixels).length % 8) % 8) false

/-- R81, R87, R88, R93 (the order is the spec's own, D18): ENCODE's validation, the dimensions first, then the length,
then the samples; no register changes. -/
def Obligations.EncodeValidatesItsRequest : Prop :=
  ∀ (w h : Int) (pixels : List RawPixel) (s : State),
    ((w < 0 ∨ 65535 < w ∨ h < 0 ∨ 65535 < h ∨ (pixels.length : Int) ≠ w * h) →
      exec (.encode w h pixels) s = .next { s with responses := .error .invalidDimension :: s.responses }) ∧
    (0 ≤ w → w ≤ 65535 → 0 ≤ h → h ≤ 65535 → (pixels.length : Int) = w * h →
      (∃ px ∈ pixels, ∃ x ∈ [px.red, px.green, px.blue], x < 0 ∨ 255 < x) →
      exec (.encode w h pixels) s = .next { s with responses := .error .outOfRangeSample :: s.responses })

/-- R82, R83 (with R76, the spec's own D9): DECODE's response is the one its loops give, for every buffer, and no
register changes. -/
def Obligations.DecodeFollowsItsLoops : Prop :=
  ∀ (buf : List Byte) (s : State),
    exec (.decode buf) s = .next { s with responses := decodeFrame buf :: s.responses }

/-- R85 (a): DECODE of what ENCODE returns for a valid image is that image. -/
def Obligations.FrameRoundTrips : Prop :=
  ∀ (w h : Half) (pixels : List Pixel) (s : State), pixels.length = w.toNat * h.toNat →
    ∃ buf : List Byte,
      exec (encodeImage w h pixels) s = .next { s with responses := .buffer buf :: s.responses } ∧
      ∀ t : State, exec (.decode buf) t = .next { t with responses := .image w h pixels :: t.responses }

/-- R83 (spec's own, derived): a frame with one or more bytes removed from its end fails with TruncatedBuffer. -/
def Obligations.ShortenedFrameFails : Prop :=
  ∀ (w h : Half) (pixels : List Pixel) (s : State) (buf : List Byte) (n : Nat),
    pixels.length = w.toNat * h.toNat →
    exec (encodeImage w h pixels) s = .next { s with responses := .buffer buf :: s.responses } →
    n < buf.length →
    ∀ t : State, exec (.decode (buf.take n)) t =
      .next { t with responses := .error .truncatedBuffer :: t.responses }

/-- R51 (spec's own, derived, D20): bytes after the ones a DECODE needs do not change the image. -/
def Obligations.DecodeIgnoresWhatFollows : Prop :=
  ∀ (buf extra : List Byte) (s : State) (w h : Half) (pixels : List Pixel),
    exec (.decode buf) s = .next { s with responses := .image w h pixels :: s.responses } →
    exec (.decode (buf ++ extra)) s = .next { s with responses := .image w h pixels :: s.responses }

/-- R82, R98: the width and height of a decoded image are its header's, and it has width x height pixels. -/
def Obligations.DecodedImageHasItsSize : Prop :=
  ∀ (buf : List Byte) (s : State) (w h : Half) (pixels : List Pixel),
    exec (.decode buf) s = .next { s with responses := .image w h pixels :: s.responses } →
    decode (.headerAt buf) = .ok (.hdr w h) ∧ pixels.length = w.toNat * h.toNat

/-- R79 (spec's own, D2): the response of ENCODE and of DECODE is a function of the request alone, and no register of
the caller changes. -/
def Obligations.RunsDependOnTheirRequestAlone : Prop :=
  (∀ (w h : Int) (pixels : List RawPixel), ∃ r : Response, ∀ s : State,
      exec (.encode w h pixels) s = .next { s with responses := r :: s.responses }) ∧
    ∀ buf : List Byte, ∃ r : Response, ∀ s : State,
      exec (.decode buf) s = .next { s with responses := r :: s.responses }

/-- R84: a DECODE run walked step by step gives the outcome of the atomic operation, within 3 x count steps and a
constant. -/
def Obligations.SteppedDecodeAgreesWithDecode : Prop :=
  ∀ (buf : List Byte) (s : State), s.run = none → s.fc = Fc.reset →
    ∃ n : Nat, n ≤ 3 * (bitRead buf 0 16 * bitRead buf 16 16) + 5 ∧
      Sys2Proof.core.run n { s with run := some .decode, fc := Fc.startDecode buf } = exec (.decode buf) s

/-- R84: an ENCODE run walked step by step gives the outcome of the atomic operation, in exactly 3 x count steps and a
constant. -/
def Obligations.SteppedEncodeAgreesWithEncode : Prop :=
  ∀ (w h : Half) (pixels : List Pixel) (s : State), s.run = none → s.fc = Fc.reset →
    pixels.length = w.toNat * h.toNat →
    Sys2Proof.core.run (3 * (w.toNat * h.toNat) + 5)
        { s with run := some .encode, fc := Fc.startEncode { width := w, height := h, pixels := pixels } } =
      exec (encodeImage w h pixels) s

-- The wire formats

/-- R45, R82 steps 1 to 3: HDR in a DECODE run that has yet to read its header sets width, height, count, the cursor to
32 and the sequencer to (red, 0), and nothing else. -/
def Obligations.HeaderOpensADecode : Prop :=
  ∀ (w h : Half) (s : State), s.run = some .decode → s.fc.headerDone = false →
    exec (.hdr w h) s = .next { s with
      fc := { s.fc with
        headerDone := true, width := w, height := h, count := w.toNat * h.toNat, cur := 32, ch := some .red,
        idx := 0 } }

/-- R45, R80 step 1: HDR in an ENCODE run enters the private writer, width first, and changes nothing of the caller's. -/
def Obligations.HeaderOpensAnEncode : Prop :=
  ∀ s : State, s.run = some .encode → s.fc.headerDone = false → s.fc.bw.part.length ≤ 7 →
    ∃ w : BitWriter,
      exec (.hdr s.fc.width s.fc.height) s = .next { s with
        fc := { s.fc with headerDone := true, ch := some .red, idx := 0, bw := w } } ∧
      unpack w.out ++ w.part = unpack s.fc.bw.out ++ s.fc.bw.part ++ headerBits s.fc.width s.fc.height ∧
      w.part.length ≤ 7

/-- R72, R82: LIT and a DLT whose sum is 0..255, in a DECODE run with a sample due: the value enters its channel and the
predictor, the cursor moves by 9 or 5, the index by 1, and nothing else changes. The predictor is 0 at sample 0. -/
def Obligations.CodeIsOneSampleOfADecode : Prop :=
  ∀ (s : State) (c : Channel), s.run = some .decode → s.fc.headerDone = true → s.fc.ch = some c →
    s.fc.idx < s.fc.count →
    (∀ v : Byte, ∃ cs : ChannelSeqs,
      exec (.lit v) s = .next { s with
        fc := { s.fc with pred := v, chan := cs, cur := s.fc.cur + 9, idx := s.fc.idx + 1 } } ∧
      cs.get c = s.fc.chan.get c ++ [v] ∧ ∀ c', c' ≠ c → cs.get c' = s.fc.chan.get c') ∧
    (∀ (sg : Bit) (m : BitVec 3) (v : Byte),
      (v.toNat : Int) = ((if s.fc.idx = 0 then 0#8 else s.fc.pred).toNat : Int) +
        (if sg = true then (m.toNat : Int) - 8 else m.toNat) →
      ∃ cs : ChannelSeqs,
        exec (.dlt sg m) s = .next { s with
          fc := { s.fc with pred := v, chan := cs, cur := s.fc.cur + 5, idx := s.fc.idx + 1 } } ∧
        cs.get c = s.fc.chan.get c ++ [v] ∧ ∀ c', c' ≠ c → cs.get c' = s.fc.chan.get c')

/-- R76, R83 (spec's own, D9): a DLT that leaves 0..255 ends the DECODE run with DeltaOutOfRange and no image. -/
def Obligations.DeltaOutOfRangeEndsADecode : Prop :=
  ∀ (s : State) (c : Channel) (sg : Bit) (m : BitVec 3), s.run = some .decode → s.fc.headerDone = true →
    s.fc.ch = some c → s.fc.idx < s.fc.count →
    (((if s.fc.idx = 0 then 0#8 else s.fc.pred).toNat : Int) +
        (if sg = true then (m.toNat : Int) - 8 else m.toNat) < 0 ∨
      255 < ((if s.fc.idx = 0 then 0#8 else s.fc.pred).toNat : Int) +
        (if sg = true then (m.toNat : Int) - 8 else m.toNat)) →
    exec (.dlt sg m) s = .next { s with
      run := none, fc := Fc.reset, responses := .error .deltaOutOfRange :: s.responses }

/-- R71, R73, R80: the code of the sample due in an ENCODE run: its bits enter the private writer, the predictor takes
the sample, the index moves by 1, and nothing else changes. The predictor is 0 at sample 0. -/
def Obligations.CodeIsOneSampleOfAnEncode : Prop :=
  ∀ (s : State) (c : Channel) (px : Pixel) (code : Code), s.run = some .encode → s.fc.headerDone = true →
    s.fc.ch = some c → s.fc.idx < s.fc.count → s.fc.pixels[s.fc.idx]? = some px → s.fc.bw.part.length ≤ 7 →
    encodeValue (if s.fc.idx = 0 then 0#8 else s.fc.pred) (component px c) = code →
    ∃ w : BitWriter,
      exec code.instr s = .next { s with
        fc := { s.fc with pred := component px c, bw := w, idx := s.fc.idx + 1 } } ∧
      unpack w.out ++ w.part = unpack s.fc.bw.out ++ s.fc.bw.part ++ ser code ∧ w.part.length ≤ 7

/-- R84: past the last sample of a channel a step of a run moves to the next channel (red, green, blue, done), from
sample 0; when all are done the run ends with its response. -/
def Obligations.SequencerMovesThroughTheChannels : Prop :=
  ∀ (s : State) (k : RunKind), s.run = some k → s.fc.headerDone = true →
    (∀ c, s.fc.ch = some c → s.fc.count ≤ s.fc.idx →
      step s = .next { s with
        fc := { s.fc with
          ch := (match c with | .red => some .green | .green => some .blue | .blue => none),
          idx := 0, pred := if s.fc.idx = 0 then 0#8 else s.fc.pred } }) ∧
    (s.fc.ch = none →
      step s = .next { s with
        run := none, fc := Fc.reset,
        responses :=
          (match k with
          | .decode => Response.image s.fc.width s.fc.height
              (zipPixels s.fc.chan.red s.fc.chan.green s.fc.chan.blue)
          | .encode => Response.buffer s.fc.bw.finalize.out) :: s.responses })

/-- R2, R9: outside a run, where the run in progress does not expect them, and where an ENCODE run does not produce
them, HDR, LIT and DLT are refused. That the wire formats stand among the instructions at all, and stop so, is the
model's choice (log 6, log 16). -/
def Obligations.WireFormatOutsideARunIsRefused : Prop :=
  ∀ s : State,
    (s.run = none → (∀ w h, exec (.hdr w h) s = .refused .noRun) ∧ (∀ v, exec (.lit v) s = .refused .noRun) ∧
      ∀ sg m, exec (.dlt sg m) s = .refused .noRun) ∧
    (s.run ≠ none → s.fc.headerDone = true → ∀ w h, exec (.hdr w h) s = .refused .notDue) ∧
    (s.run ≠ none → s.fc.headerDone = false ∨ s.fc.ch = none ∨ s.fc.count ≤ s.fc.idx →
      (∀ v, exec (.lit v) s = .refused .notDue) ∧ ∀ sg m, exec (.dlt sg m) s = .refused .notDue) ∧
    (s.run = some .encode → s.fc.headerDone = false →
      ∀ w h, w ≠ s.fc.width ∨ h ≠ s.fc.height → exec (.hdr w h) s = .refused .notProduced) ∧
    ∀ (c : Channel) (code : Code), s.run = some .encode → s.fc.headerDone = true → s.fc.ch = some c →
      s.fc.idx < s.fc.count →
      (∀ px, s.fc.pixels[s.fc.idx]? = some px →
        encodeValue (if s.fc.idx = 0 then 0#8 else s.fc.pred) (component px c) ≠ code) →
      exec code.instr s = .refused .notProduced
end

