-- ==== Sys2Proof/Laws/Bits.lean ====
section
/-! SUPPORT. Lemmas about bit sequences, packing and the read primitive (00_scope.md section 6.2, 20_memory.md). -/

namespace Sys2Proof

@[simp] theorem zeros_length (n : Nat) : (zeros n).length = n := by simp [zeros]

@[simp] theorem bitsN_length (n v : Nat) : (bitsN n v).length = n := by
  induction n with
  | zero => rfl
  | succ n ih => simp [bitsN, ih]

theorem uint_foldl (s : List Bit) (acc : Nat) :
    s.foldl (fun acc b => 2 * acc + b.toNat) acc = acc * 2 ^ s.length + uint s := by
  induction s generalizing acc with
  | nil => simp [uint]
  | cons b s ih =>
    simp only [uint, List.foldl_cons, List.length_cons] at *
    rw [ih, ih (2 * 0 + b.toNat)]
    ring

@[simp] theorem uint_nil : uint [] = 0 := rfl

theorem uint_append (a b : List Bit) : uint (a ++ b) = uint a * 2 ^ b.length + uint b := by
  rw [uint, List.foldl_append, uint_foldl]
  rfl

theorem uint_cons (b : Bit) (s : List Bit) : uint (b :: s) = b.toNat * 2 ^ s.length + uint s := by
  have h := uint_append [b] s
  simpa [uint] using h

theorem uint_lt (s : List Bit) : uint s < 2 ^ s.length := by
  induction s with
  | nil => simp
  | cons b s ih =>
    rw [uint_cons, List.length_cons, pow_succ]
    have : b.toNat ≤ 1 := Bool.toNat_le b
    nlinarith

theorem uint_bitsN (n v : Nat) : uint (bitsN n v) = v % 2 ^ n := by
  induction n with
  | zero => simp [bitsN, Nat.mod_one]
  | succ n ih =>
    rw [bitsN, uint_cons, ih, bitsN_length, Nat.mod_pow_succ, Nat.testBit_eq_decide_div_mod_eq]
    rcases Nat.mod_two_eq_zero_or_one (v / 2 ^ n) with h | h <;> simp [h]; omega

theorem bitsN_uint (s : List Bit) (v : Nat) : bitsN s.length (uint s + v * 2 ^ s.length) = s := by
  induction s generalizing v with
  | nil => rfl
  | cons b s ih =>
    have hb : uint (b :: s) + v * 2 ^ (s.length + 1) = uint s + (b.toNat + 2 * v) * 2 ^ s.length := by
      rw [uint_cons]; ring
    rw [List.length_cons, bitsN, hb, ih]
    congr 1
    rw [Nat.testBit_eq_decide_div_mod_eq, Nat.add_mul_div_right _ _ (by positivity), Nat.div_eq_of_lt (uint_lt s)]
    cases b <;> simp [Nat.add_mul_mod_self_left]

/-- The bits of the number a sequence stands for are the sequence (section 6.2). -/
theorem bitsN_uint_self (s : List Bit) : bitsN s.length (uint s) = s := by
  simpa using bitsN_uint s 0

@[simp] theorem unpack_nil : unpack [] = [] := rfl

theorem unpack_cons (b : Byte) (buf : List Byte) : unpack (b :: buf) = bitsN 8 b.toNat ++ unpack buf := rfl

@[simp] theorem unpack_append (a b : List Byte) : unpack (a ++ b) = unpack a ++ unpack b := by
  simp [unpack]

@[simp] theorem unpack_length (buf : List Byte) : (unpack buf).length = 8 * buf.length := by
  induction buf with
  | nil => rfl
  | cons b buf ih => simp [unpack_cons, ih]; omega

/-- The byte eight bits make stands for those bits (R27). -/
theorem unpack_byteOf (s : List Bit) (h : s.length = 8) : unpack [byteOf s] = s := by
  have hlt : uint s < 256 := by simpa [h] using uint_lt s
  have hs := bitsN_uint_self s
  rw [h] at hs
  rw [unpack_cons, byteOf, BitVec.toNat_ofNat, Nat.mod_eq_of_lt hlt, hs]
  simp

/-- READ's body answers exactly when the bits are there, and then with their value (R28, R34). -/
theorem readBits_eq_some (buf : List Byte) (p n v : Nat) :
    readBits buf p n = some v ↔ p + n ≤ 8 * buf.length ∧ v = bitRead buf p n := by
  unfold readBits bitCount
  split <;> simp_all [eq_comm]

theorem readBits_eq_none (buf : List Byte) (p n : Nat) : readBits buf p n = none ↔ 8 * buf.length < p + n := by
  unfold readBits bitCount
  split <;> simp_all

@[simp] theorem ser_length_lit (v : Byte) : (ser (.lit v)).length = 9 := by simp [ser]

@[simp] theorem ser_length_dlt (s : Bit) (m : BitVec 3) : (ser (.dlt s m)).length = 5 := by simp [ser]

@[simp] theorem headerBits_length (w h : Half) : (headerBits w h).length = 32 := by simp [headerBits, Config.dimBits]

@[simp] theorem packBits_nil : packBits [] = [] := rfl

/-- Eight bits at the head make the first byte. -/
theorem packBits_append (s t : List Bit) (h : s.length = 8) : packBits (s ++ t) = byteOf s :: packBits t := by
  match s, h with
  | [_, _, _, _, _, _, _, _], _ => rfl

end Sys2Proof
end

