-- ==== Sys2Proof/Laws/State.lean ====
section
/-! SUPPORT. One lemma per field per update of State and of the run registers, each true by rfl. -/

namespace Sys2Proof.Machine

@[simp] theorem respond_bw (s : State) (r : Response) : (s.respond r).bw = s.bw := rfl
@[simp] theorem respond_pred (s : State) (r : Response) : (s.respond r).pred = s.pred := rfl
@[simp] theorem respond_run (s : State) (r : Response) : (s.respond r).run = s.run := rfl
@[simp] theorem respond_fc (s : State) (r : Response) : (s.respond r).fc = s.fc := rfl
@[simp] theorem respond_requests (s : State) (r : Response) : (s.respond r).requests = s.requests := rfl
@[simp] theorem respond_responses (s : State) (r : Response) : (s.respond r).responses = r :: s.responses := rfl

@[simp] theorem raise_bw (s : State) (k : ErrorKind) : (s.raise k).bw = s.bw := rfl
@[simp] theorem raise_pred (s : State) (k : ErrorKind) : (s.raise k).pred = s.pred := rfl
@[simp] theorem raise_run (s : State) (k : ErrorKind) : (s.raise k).run = s.run := rfl
@[simp] theorem raise_fc (s : State) (k : ErrorKind) : (s.raise k).fc = s.fc := rfl
@[simp] theorem raise_requests (s : State) (k : ErrorKind) : (s.raise k).requests = s.requests := rfl
@[simp] theorem raise_responses (s : State) (k : ErrorKind) : (s.raise k).responses = .error k :: s.responses := rfl

@[simp] theorem endRun_bw (s : State) (r : Response) : (s.endRun r).bw = s.bw := rfl
@[simp] theorem endRun_pred (s : State) (r : Response) : (s.endRun r).pred = s.pred := rfl
@[simp] theorem endRun_run (s : State) (r : Response) : (s.endRun r).run = none := rfl
@[simp] theorem endRun_fc (s : State) (r : Response) : (s.endRun r).fc = Fc.reset := rfl
@[simp] theorem endRun_requests (s : State) (r : Response) : (s.endRun r).requests = s.requests := rfl
@[simp] theorem endRun_responses (s : State) (r : Response) : (s.endRun r).responses = r :: s.responses := rfl

@[simp] theorem progress_running (s : State) (f : Fc) : s.progress (.running f) = { s with fc := f } := rfl
@[simp] theorem progress_finished (s : State) (r : Response) : s.progress (.finished r) = s.endRun r := rfl
@[simp] theorem progress_bw (s : State) (p : Progress) : (s.progress p).bw = s.bw := by cases p <;> rfl
@[simp] theorem progress_pred (s : State) (p : Progress) : (s.progress p).pred = s.pred := by cases p <;> rfl
@[simp] theorem progress_requests (s : State) (p : Progress) : (s.progress p).requests = s.requests := by
  cases p <;> rfl

@[simp] theorem takeHeader_headerDone (f : Fc) (w h : Half) : (f.takeHeader w h).headerDone = true := rfl
@[simp] theorem takeHeader_width (f : Fc) (w h : Half) : (f.takeHeader w h).width = w := rfl
@[simp] theorem takeHeader_height (f : Fc) (w h : Half) : (f.takeHeader w h).height = h := rfl
@[simp] theorem takeHeader_count (f : Fc) (w h : Half) : (f.takeHeader w h).count = w.toNat * h.toNat := rfl
@[simp] theorem takeHeader_ch (f : Fc) (w h : Half) : (f.takeHeader w h).ch = some .red := rfl
@[simp] theorem takeHeader_idx (f : Fc) (w h : Half) : (f.takeHeader w h).idx = 0 := rfl
@[simp] theorem takeHeader_cur (f : Fc) (w h : Half) : (f.takeHeader w h).cur = 32 := rfl
@[simp] theorem takeHeader_chan (f : Fc) (w h : Half) : (f.takeHeader w h).chan = f.chan := rfl
@[simp] theorem takeHeader_bw (f : Fc) (w h : Half) : (f.takeHeader w h).bw = f.bw := rfl
@[simp] theorem takeHeader_pred (f : Fc) (w h : Half) : (f.takeHeader w h).pred = f.pred := rfl
@[simp] theorem takeHeader_buf (f : Fc) (w h : Half) : (f.takeHeader w h).buf = f.buf := rfl
@[simp] theorem takeHeader_pixels (f : Fc) (w h : Half) : (f.takeHeader w h).pixels = f.pixels := rfl

@[simp] theorem emitHeader_headerDone (f : Fc) : f.emitHeader.headerDone = true := rfl
@[simp] theorem emitHeader_width (f : Fc) : f.emitHeader.width = f.width := rfl
@[simp] theorem emitHeader_height (f : Fc) : f.emitHeader.height = f.height := rfl
@[simp] theorem emitHeader_count (f : Fc) : f.emitHeader.count = f.count := rfl
@[simp] theorem emitHeader_ch (f : Fc) : f.emitHeader.ch = some .red := rfl
@[simp] theorem emitHeader_idx (f : Fc) : f.emitHeader.idx = 0 := rfl
@[simp] theorem emitHeader_cur (f : Fc) : f.emitHeader.cur = f.cur := rfl
@[simp] theorem emitHeader_chan (f : Fc) : f.emitHeader.chan = f.chan := rfl
@[simp] theorem emitHeader_pred (f : Fc) : f.emitHeader.pred = f.pred := rfl
@[simp] theorem emitHeader_buf (f : Fc) : f.emitHeader.buf = f.buf := rfl
@[simp] theorem emitHeader_pixels (f : Fc) : f.emitHeader.pixels = f.pixels := rfl

@[simp] theorem emit_headerDone (f : Fc) (x : Byte) : (f.emit x).headerDone = f.headerDone := rfl
@[simp] theorem emit_width (f : Fc) (x : Byte) : (f.emit x).width = f.width := rfl
@[simp] theorem emit_height (f : Fc) (x : Byte) : (f.emit x).height = f.height := rfl
@[simp] theorem emit_count (f : Fc) (x : Byte) : (f.emit x).count = f.count := rfl
@[simp] theorem emit_ch (f : Fc) (x : Byte) : (f.emit x).ch = f.ch := rfl
@[simp] theorem emit_idx (f : Fc) (x : Byte) : (f.emit x).idx = f.idx + 1 := rfl
@[simp] theorem emit_cur (f : Fc) (x : Byte) : (f.emit x).cur = f.cur := rfl
@[simp] theorem emit_chan (f : Fc) (x : Byte) : (f.emit x).chan = f.chan := rfl
@[simp] theorem emit_pred (f : Fc) (x : Byte) : (f.emit x).pred = x := rfl
@[simp] theorem emit_buf (f : Fc) (x : Byte) : (f.emit x).buf = f.buf := rfl
@[simp] theorem emit_pixels (f : Fc) (x : Byte) : (f.emit x).pixels = f.pixels := rfl

theorem openChannel_eq (f : Fc) : f.openChannel = { f with pred := if f.idx = 0 then 0#8 else f.pred } := by
  unfold Fc.openChannel
  split <;> rfl

@[simp] theorem openChannel_pred (f : Fc) : f.openChannel.pred = if f.idx = 0 then 0#8 else f.pred := by
  rw [openChannel_eq]

theorem nextChannel_eq (f : Fc) (c : Channel) :
    f.nextChannel c =
      { f with ch := Machine.nextChannel c, idx := 0, pred := if f.idx = 0 then 0#8 else f.pred } := by
  rw [Fc.nextChannel, openChannel_eq]

@[simp] theorem push_get_same (cs : ChannelSeqs) (c : Channel) (v : Byte) : (cs.push c v).get c = cs.get c ++ [v] := by
  cases c <;> rfl

theorem push_get_other (cs : ChannelSeqs) (c d : Channel) (v : Byte) (h : d ≠ c) : (cs.push c v).get d = cs.get d := by
  cases c <;> cases d <;> first | rfl | exact absurd rfl h

end Sys2Proof.Machine
end

