-- ==== Sys2Proof/Laws/Ops.lean ====
section
/-! SUPPORT. For each shared operation, what it can do, said once. -/

namespace Sys2Proof.Machine

-- The BitWriter

theorem empty_wf : Memory.wf BitWriter.empty = true := rfl

theorem reset_memory_wf : Memory.wf State.reset.bw = true ∧ Memory.wf State.reset.fc.bw = true := ⟨rfl, rfl⟩

/-- One appended bit: either it pends, or it completes a byte. -/
theorem appendBit_cases (w : BitWriter) (b : Bit) :
    (w.part.length + 1 = 8 ∧ w.appendBit b = { part := [], out := w.out ++ [byteOf (w.part ++ [b])] }) ∨
      (w.part.length + 1 ≠ 8 ∧ w.appendBit b = { part := w.part ++ [b], out := w.out }) := by
  by_cases h : w.part.length + 1 = 8
  · exact .inl ⟨h, by simp [BitWriter.appendBit, Config.byteBits, h]⟩
  · exact .inr ⟨h, by simp [BitWriter.appendBit, Config.byteBits]; omega⟩

theorem appendBit_wf (w : BitWriter) (b : Bit) (h : Memory.wf w = true) : Memory.wf (w.appendBit b) = true := by
  simp only [Memory.wf, decide_eq_true_eq] at *
  rcases appendBit_cases w b with ⟨_, e⟩ | ⟨_, e⟩ <;> rw [e] <;> simp
  omega

theorem appendBit_stream (w : BitWriter) (b : Bit) : (w.appendBit b).stream = w.stream ++ [b] := by
  rcases appendBit_cases w b with ⟨h, e⟩ | ⟨_, e⟩ <;> rw [e] <;> simp [BitWriter.stream]
  exact unpack_byteOf _ (by simpa using h)

theorem appendBit_out_prefix (w : BitWriter) (b : Bit) : w.out <+: (w.appendBit b).out := by
  rcases appendBit_cases w b with ⟨_, e⟩ | ⟨_, e⟩ <;> rw [e]
  exact List.prefix_append _ _

@[simp] theorem append_nil (w : BitWriter) : w.append [] = w := rfl

theorem append_cons (w : BitWriter) (b : Bit) (bits : List Bit) :
    w.append (b :: bits) = (w.appendBit b).append bits := rfl

theorem append_append (w : BitWriter) (a b : List Bit) : w.append (a ++ b) = (w.append a).append b := by
  simp [BitWriter.append]

/-- APPEND keeps the memory's canonical form. -/
theorem append_wf (w : BitWriter) (bits : List Bit) (h : Memory.wf w = true) : Memory.wf (w.append bits) = true := by
  induction bits generalizing w with
  | nil => exact h
  | cons b bits ih => exact ih _ (appendBit_wf w b h)

theorem append_stream (w : BitWriter) (bits : List Bit) : (w.append bits).stream = w.stream ++ bits := by
  induction bits generalizing w with
  | nil => simp
  | cons b bits ih => rw [append_cons, ih, appendBit_stream]; simp

theorem append_out_prefix (w : BitWriter) (bits : List Bit) : w.out <+: (w.append bits).out := by
  induction bits generalizing w with
  | nil => exact List.prefix_refl _
  | cons b bits ih => exact (appendBit_out_prefix w b).trans (ih _)

theorem stream_length (w : BitWriter) : w.stream.length = w.pos := by
  simp [BitWriter.stream, BitWriter.pos, Config.byteBits]

theorem append_pos (w : BitWriter) (bits : List Bit) : (w.append bits).pos = w.pos + bits.length := by
  rw [← stream_length, append_stream, List.length_append, stream_length]

/-- FINALIZE: nothing pends, or the pending bits make the high bits of one more byte. -/
theorem finalize_cases (w : BitWriter) :
    (w.part = [] ∧ w.finalize = w) ∨
      (w.part ≠ [] ∧ w.finalize = { part := [], out := w.out ++ [w.acc] }) := by
  by_cases h : w.part = []
  · exact .inl ⟨h, by simp [BitWriter.finalize, h]⟩
  · refine .inr ⟨h, ?_⟩
    have : 1 ≤ w.part.length := List.length_pos_iff.mpr h
    simp [BitWriter.finalize, BitWriter.acc, this]

/-- FINALIZE keeps the memory's canonical form. -/
theorem finalize_wf (w : BitWriter) (h : Memory.wf w = true) : Memory.wf w.finalize = true := by
  rcases finalize_cases w with ⟨_, e⟩ | ⟨_, e⟩ <;> rw [e]
  · exact h
  · rfl

@[simp] theorem finalize_part (w : BitWriter) : w.finalize.part = [] := by
  rcases finalize_cases w with ⟨h, e⟩ | ⟨_, e⟩ <;> rw [e]
  exact h

theorem unpack_acc (w : BitWriter) (h : w.part.length ≤ 7) :
    unpack [w.acc] = w.part ++ List.replicate (8 - w.part.length) false := by
  rw [BitWriter.acc, unpack_byteOf]
  · rfl
  · simp [Config.byteBits]; omega

theorem finalize_out_prefix (w : BitWriter) : w.out <+: w.finalize.out := by
  rcases finalize_cases w with ⟨_, e⟩ | ⟨_, e⟩ <;> rw [e]
  exact List.prefix_append _ _

-- The DeltaChannelCodec

/-- ENCODE_SAMPLE's code, by the difference (R71). -/
theorem encodeValue_cases (pred x : Byte) :
    ((sampleDelta pred x < -8 ∨ 7 < sampleDelta pred x) ∧ encodeValue pred x = .lit x) ∨
      (-8 ≤ sampleDelta pred x ∧ sampleDelta pred x ≤ 7 ∧
        encodeValue pred x = .dlt (deltaSign (sampleDelta pred x)) (deltaMagnitude (sampleDelta pred x))) := by
  by_cases h : deltaFlag (sampleDelta pred x) = true
  · have h' := h
    simp [deltaFlag, Config.deltaMin, Config.deltaMax] at h'
    exact .inr ⟨h'.1, h'.2, by simp [encodeValue, h]⟩
  · have h' := h
    simp [deltaFlag, Config.deltaMin, Config.deltaMax] at h'
    refine .inl ⟨?_, by simp [encodeValue, h]⟩
    omega

@[simp] theorem decodeValue_lit (pred v : Byte) : decodeValue pred (.lit v) = some v := rfl

/-- DECODE_SAMPLE of a delta code answers a value exactly when that value is the sum (R72, R76). -/
theorem decodeValue_dlt (pred v : Byte) (s : Bit) (m : BitVec 3) :
    decodeValue pred (.dlt s m) = some v ↔ (v.toNat : Int) = (pred.toNat : Int) + codeDelta s m := by
  generalize hx : (pred.toNat : Int) + codeDelta s m = x
  simp only [decodeValue, hx, inSampleRange, Config.sampleMax]
  have hv := v.isLt
  constructor
  · intro h
    split at h
    · rename_i hr
      simp only [Bool.and_eq_true, decide_eq_true_eq] at hr
      cases h
      rw [BitVec.toNat_ofInt]
      omega
    · cases h
  · intro h
    have hr : (decide (0 ≤ x) && decide (x ≤ 255)) = true := by
      simp only [Bool.and_eq_true, decide_eq_true_eq]; omega
    rw [if_pos hr, ← h, BitVec.ofInt_natCast, BitVec.ofNat_toNat, BitVec.setWidth_eq]

theorem decodeValue_dlt_none (pred : Byte) (s : Bit) (m : BitVec 3) :
    decodeValue pred (.dlt s m) = none ↔
      (pred.toNat : Int) + codeDelta s m < 0 ∨ 255 < (pred.toNat : Int) + codeDelta s m := by
  generalize hx : (pred.toNat : Int) + codeDelta s m = x
  simp only [decodeValue, hx, inSampleRange, Config.sampleMax]
  by_cases hr : 0 ≤ x ∧ x ≤ 255
  · simp [hr.1, hr.2]
  · have hf : ¬ (decide (0 ≤ x) && decide (x ≤ 255)) = true := by simpa using hr
    simp only [if_neg hf, true_iff]
    omega

-- The sequencer

theorem dueChannel_eq_some (f : Fc) (c : Channel) :
    f.dueChannel = some c ↔ f.ch = some c ∧ f.headerDone = true ∧ f.idx < f.count := by
  unfold Fc.dueChannel
  cases f.ch <;> simp
  tauto

theorem dueChannel_eq_none (f : Fc) :
    f.dueChannel = none ↔ f.ch = none ∨ f.headerDone = false ∨ f.count ≤ f.idx := by
  unfold Fc.dueChannel
  cases f.ch <;> simp
  cases f.headerDone <;> simp

/-- A consumed code: the run ends with DeltaOutOfRange, or goes on with one sample more (R82). -/
theorem consume_cases (f : Fc) (c : Channel) (code : Code) :
    (decodeValue f.openChannel.pred code = none ∧ f.consume c code = .finished (.error .deltaOutOfRange)) ∨
      ∃ v, decodeValue f.openChannel.pred code = some v ∧
        f.consume c code = .running { f with
          pred := v, chan := f.chan.push c v, cur := f.cur + codeLength code, idx := f.idx + 1 } := by
  unfold Fc.consume
  cases h : decodeValue f.openChannel.pred code with
  | none => exact .inl ⟨rfl, rfl⟩
  | some v => exact .inr ⟨v, rfl, rfl⟩

/-- One iteration of the sequencer (R84): the end, a change of channel, or a sample. -/
theorem tick_cases (f : Fc) (k : RunKind) :
    (f.ch = none ∧ f.tick k = .finished (f.result k)) ∨
      (∃ c, f.ch = some c ∧ f.count ≤ f.idx ∧ f.tick k = .running (f.nextChannel c)) ∨
      ∃ c, f.ch = some c ∧ f.idx < f.count ∧ f.tick k = f.sample c k := by
  unfold Fc.tick
  cases h : f.ch with
  | none => exact .inl ⟨rfl, rfl⟩
  | some c =>
    by_cases hi : f.idx < f.count
    · exact .inr (.inr ⟨c, rfl, hi, by simp [hi]⟩)
    · exact .inr (.inl ⟨c, rfl, by omega, by simp [hi]⟩)

theorem drive_finished {f : Fc} {k : RunKind} {r : Response} (n : Nat) (h : f.tick k = .finished r) :
    Fc.drive (n + 1) f k = some r := by simp [Fc.drive, h]

theorem drive_running {f g : Fc} {k : RunKind} (n : Nat) (h : f.tick k = .running g) :
    Fc.drive (n + 1) f k = Fc.drive n g k := by simp [Fc.drive, h]

end Sys2Proof.Machine
end

