-- ==== Sys2Proof/Laws/Exec.lean ====
section
/-! SUPPORT. What a fetch, a meaning and a step can do, said once. -/

namespace Sys2Proof.Machine

/-- A next state of a step comes from the fetched instruction or from a move of the run in progress. -/
theorem step_next (s t : State) :
    step s = .next t ↔ (∃ i u, fetchNext s = .instr i u ∧ exec i u = .next t) ∨ fetchNext s = .internal t := by
  unfold step
  cases h : fetchNext s <;> simp

/-- What the decoder answers to a request is an operation, never a wire format (R2, R53). -/
theorem decodeRequest_isOperation (q : Request) (i : Instr) (h : decodeRequest q = .ok i) : isOperation i = true := by
  unfold decodeRequest at h
  split at h
  case h_3 => split at h <;> [(split at h <;> cases h; rfl); cases h]
  case h_5 => split at h <;> cases h; rfl
  case h_6 => split at h <;> cases h; rfl
  case h_8 => split at h <;> cases h; rfl
  all_goals cases h
  all_goals rfl

/-- A fetched request: the head of the port, decoded, the rest left (R8). -/
theorem fetchNext_idle (s : State) (h : s.run = none) :
    (s.requests = [] ∧ fetchNext s = .refuse .noRequest) ∨
      ∃ q rest, s.requests = q :: rest ∧
        ((∃ i, decodeRequest q = .ok i ∧ fetchNext s = .instr i { s with requests := rest }) ∨
          ∃ e, decodeRequest q = .error e ∧ fetchNext s = .refuse (.badRequest e)) := by
  unfold fetchNext fetchRequest
  rw [h]
  cases hr : s.requests with
  | nil => exact .inl ⟨rfl, rfl⟩
  | cons q rest =>
    refine .inr ⟨q, rest, rfl, ?_⟩
    cases hd : decodeRequest q with
    | ok i => exact .inl ⟨i, rfl, by simp [decode, hd]⟩
    | error e => exact .inr ⟨e, rfl, by simp [decode, hd]⟩

/-- Every item of a DECODE run's fetch (R82 to R84). -/
theorem fetchNext_decode (s : State) (h : s.run = some .decode) :
    (∃ w ht, s.fc.headerDone = false ∧ decodeHeader s.fc.buf = some (w, ht) ∧ fetchNext s = .instr (.hdr w ht) s) ∨
      (∃ c code n, s.fc.dueChannel = some c ∧ parse s.fc.buf s.fc.cur = some (code, n) ∧
        fetchNext s = .instr code.instr s) ∨
      ((s.fc.headerDone = false ∧ decodeHeader s.fc.buf = none ∨
          s.fc.dueChannel.isSome ∧ parse s.fc.buf s.fc.cur = none) ∧
        fetchNext s = .internal (s.endRun (.error .truncatedBuffer))) ∨
      (s.fc.headerDone = true ∧ s.fc.dueChannel = none ∧ fetchNext s = .internal (s.progress (s.fc.tick .decode))) := by
  unfold fetchNext fetchDecodeRun
  rw [h]
  cases hd : s.fc.headerDone with
  | false =>
    cases hh : decodeHeader s.fc.buf with
    | none => right; right; left; simp [decode, hh]
    | some p => exact .inl ⟨p.1, p.2, rfl, rfl, by simp [decode, hh]⟩
  | true =>
    cases hc : s.fc.dueChannel with
    | none => exact .inr (.inr (.inr ⟨rfl, rfl, by simp⟩))
    | some c =>
      cases hp : parse s.fc.buf s.fc.cur with
      | none => right; right; left; simp [decode, hp]
      | some q => exact .inr (.inl ⟨c, q.1, q.2, rfl, rfl, by simp [decode, hp]⟩)

/-- Every item of an ENCODE run's fetch (R80, R84). -/
theorem fetchNext_encode (s : State) (h : s.run = some .encode) :
    (s.fc.headerDone = false ∧ fetchNext s = .instr (.hdr s.fc.width s.fc.height) s) ∨
      (∃ c x, s.fc.dueChannel = some c ∧ s.fc.dueSample c = some x ∧
        fetchNext s = .instr (encodeValue s.fc.openChannel.pred x).instr s) ∨
      (s.fc.headerDone = true ∧ (∀ c, s.fc.dueChannel = some c → s.fc.dueSample c = none) ∧
        fetchNext s = .internal (s.progress (s.fc.tick .encode))) := by
  unfold fetchNext fetchEncodeRun
  rw [h]
  cases hd : s.fc.headerDone with
  | false => exact .inl ⟨rfl, by simp⟩
  | true =>
    cases hc : s.fc.dueChannel with
    | none => exact .inr (.inr ⟨rfl, by simp, by simp⟩)
    | some c =>
      cases hx : s.fc.dueSample c with
      | none => right; right; refine ⟨rfl, ?_, by simp [hx]⟩; rintro _ ⟨⟩; exact hx
      | some x => exact .inr (.inl ⟨c, x, rfl, hx, by simp [hx]⟩)

/-- The arms of the two code items are one operation. -/
theorem exec_code (code : Code) (s : State) : exec code.instr s = runCode code s := by cases code <;> rfl

/-- A code item's next state: one sample of the run in progress (R80, R82). -/
theorem runCode_next (code : Code) (s t : State) :
    runCode code s = .next t ↔
      ∃ c, s.fc.dueChannel = some c ∧
        ((s.run = some .decode ∧ t = s.progress (s.fc.consume c code)) ∨
          (s.run = some .encode ∧ ∃ x, s.fc.dueSample c = some x ∧ encodeValue s.fc.openChannel.pred x = code ∧
            t = { s with fc := s.fc.emit x })) := by
  unfold runCode
  cases hr : s.run with
  | none => simp
  | some k =>
    cases hc : s.fc.dueChannel with
    | none => simp
    | some c =>
      cases k with
      | decode => simp [eq_comm]
      | encode =>
        cases hx : s.fc.dueSample c with
        | none => simp [hx]
        | some x =>
          simp only [hx]
          by_cases he : encodeValue s.fc.openChannel.pred x = code
          · rw [if_pos he]
            constructor
            · intro ht; cases ht; exact ⟨c, rfl, .inr ⟨trivial, x, hx, he, by rw [← hr]⟩⟩
            · rintro ⟨_, ⟨⟩, ⟨⟨⟩, _⟩ | ⟨_, y, hy, _, rfl⟩⟩
              cases hx.symm.trans hy
              rw [← hr]
          · rw [if_neg he]
            constructor
            · intro ht; cases ht
            · rintro ⟨_, ⟨⟩, ⟨⟨⟩, _⟩ | ⟨_, y, hy, hc', _⟩⟩
              cases hx.symm.trans hy
              exact absurd hc' he

/-- A header item's next state: step 1 of the run in progress (R80, R82). -/
theorem execHdr_next (w h : Half) (s t : State) :
    execHdr w h s = .next t ↔
      s.fc.headerDone = false ∧
        ((s.run = some .decode ∧ t = { s with fc := s.fc.takeHeader w h }) ∨
          (s.run = some .encode ∧ s.fc.width = w ∧ s.fc.height = h ∧ t = { s with fc := s.fc.emitHeader })) := by
  unfold execHdr
  cases hr : s.run with
  | none => simp
  | some k =>
    cases hd : s.fc.headerDone with
    | true => simp
    | false =>
      cases k with
      | decode => simp [eq_comm]
      | encode =>
        simp only [Bool.false_eq_true, if_false]
        by_cases he : s.fc.width = w ∧ s.fc.height = h
        · rw [if_pos he]
          constructor
          · intro ht; cases ht; exact ⟨trivial, .inr ⟨trivial, he.1, he.2, by rw [← hr]⟩⟩
          · rintro ⟨_, ⟨⟨⟩, _⟩ | ⟨_, _, _, rfl⟩⟩
            rw [← hr]
        · rw [if_neg he]
          constructor
          · intro ht; cases ht
          · rintro ⟨_, ⟨⟨⟩, _⟩ | ⟨_, h1, h2, _⟩⟩
            exact absurd ⟨h1, h2⟩ he

/-- ENCODE's and DECODE's answer: the run's response, given to the caller. -/
theorem answer_next (s t : State) (r : Option Response) :
    s.answer r = .next t ↔ ∃ q, r = some q ∧ t = s.respond q := by
  cases r <;> simp [State.answer, eq_comm]

end Sys2Proof.Machine
end

