-- ==== Sys2Proof/Laws/Flags.lean ====
section
/-! SUPPORT. The range checks and the fields of a delta code, as propositions (R43, R67, R71, R81). -/

namespace Sys2Proof

@[simp] theorem readLengthOk_iff (n : Nat) : readLengthOk n = true ↔ 1 ≤ n ∧ n ≤ 16 := by
  simp [readLengthOk, Config.readMin, Config.readMax]

end Sys2Proof

namespace Sys2Proof.Machine

@[simp] theorem inSampleRange_iff (x : Int) : inSampleRange x = true ↔ 0 ≤ x ∧ x ≤ 255 := by
  simp [inSampleRange, Config.sampleMax]

@[simp] theorem inDimRange_iff (x : Int) : inDimRange x = true ↔ 0 ≤ x ∧ x ≤ 65535 := by
  simp [inDimRange, Config.dimMax]

@[simp] theorem deltaFlag_iff (d : Int) : deltaFlag d = true ↔ -8 ≤ d ∧ d ≤ 7 := by
  simp [deltaFlag, Config.deltaMin, Config.deltaMax]

theorem deltaMagnitude_toNat (d : Int) : ((deltaMagnitude d).toNat : Int) = d % 8 := by
  rw [deltaMagnitude, BitVec.toNat_ofInt]
  simp only [Config.modulus]
  omega

@[simp] theorem codeDelta_true (m : BitVec 3) : codeDelta true m = (m.toNat : Int) - 8 := rfl
@[simp] theorem codeDelta_false (m : BitVec 3) : codeDelta false m = (m.toNat : Int) := rfl

/-- A pixel passes validation exactly when its components are u8 (R81). -/
theorem narrowPixel_eq_none (px : RawPixel) :
    narrowPixel px = none ↔
      ¬ ((0 ≤ px.red ∧ px.red ≤ 255) ∧ (0 ≤ px.green ∧ px.green ≤ 255) ∧ (0 ≤ px.blue ∧ px.blue ≤ 255)) := by
  unfold narrowPixel
  by_cases h : (inSampleRange px.red && inSampleRange px.green && inSampleRange px.blue) = true
  · rw [if_pos h]
    simp only [Bool.and_eq_true, inSampleRange_iff] at h
    simp
    tauto
  · rw [if_neg h]
    simp only [Bool.and_eq_true, inSampleRange_iff] at h
    simp
    intros
    omega

end Sys2Proof.Machine
end

