-- ==== Sys2Proof/Laws/PerInstr.lean ====
section
/-! SUPPORT. A law about every instruction as syntax, one lemma per constructor: what the encoder writes carries the
fixed bits of the instruction's row (30_encoding.md rules R41, R42, R45, R53). -/

namespace Sys2Proof.Laws.RowBits

/-- The fixed bits of an instruction's row: a header has none, a literal code's flag is 0 and a delta code's 1, an
operation has its command code. -/
def hasRowBits : Instr → Encoded → Bool
  | .hdr _ _, .headerAt buf => decide (buf.length = 4)
  | .lit _, .codeAt buf p => decide (bitAt buf p = some false)
  | .dlt _ _, .codeAt buf p => decide (bitAt buf p = some true)
  | .append _, .request q => decide (q.code = 0b0000#4)
  | .finalize, .request q => decide (q.code = 0b0001#4)
  | .read _ _ _, .request q => decide (q.code = 0b0100#4)
  | .chReset, .request q => decide (q.code = 0b1000#4)
  | .encodeSample _, .request q => decide (q.code = 0b1001#4)
  | .decodeSample _, .request q => decide (q.code = 0b1010#4)
  | .encode _ _ _, .request q => decide (q.code = 0b1100#4)
  | .decode _, .request q => decide (q.code = 0b1101#4)
  | _, _ => false

/-- The encoder writes the row's fixed bits. -/
def Statement (i : Instr) : Prop := hasRowBits i (encode i) = true

theorem hdr (width height : Half) : Statement (.hdr width height) := by
  simp only [Statement, encode, headerBits, bitsN, List.cons_append, List.nil_append, packBits,
    hasRowBits]
  rfl

theorem lit (v : Byte) : Statement (.lit v) := by
  unfold Statement
  revert v
  decide +kernel

theorem dlt (s : Bit) (m : BitVec 3) : Statement (.dlt s m) := by
  unfold Statement
  revert s m
  decide +kernel

theorem append (bits : List Bit) : Statement (.append bits) := rfl
theorem finalize : Statement .finalize := rfl
theorem read (buf : List Byte) (bitOffset length : Nat) : Statement (.read buf bitOffset length) := rfl
theorem chReset : Statement .chReset := rfl
theorem encodeSample (value : Byte) : Statement (.encodeSample value) := rfl
theorem decodeSample (code : Code) : Statement (.decodeSample code) := rfl
theorem encode (width height : Int) (pixels : List RawPixel) : Statement (.encode width height pixels) := rfl
theorem decode (buf : List Byte) : Statement (.decode buf) := rfl

end Sys2Proof.Laws.RowBits
end

