-- ==== Sys2Proof/Tests/Slice0.lean ====
section
/-! SUPPORT. The model's own tests: the WellFormed smoke, words written out from 30_encoding.md, vectors of
95_test_vectors.md, and for each statement with hypotheses a concrete case that meets them all. -/

namespace Sys2Proof.Tests

open Sys2Proof.Machine

/-- The state an outcome leaves, if it is a next state. -/
def after : Host.Outcome State Fault Refusal → Option State
  | .next s => some s
  | _ => none

theorem next_of_after {o : Host.Outcome State Fault Refusal} {s : State} (h : after o = some s) : o = .next s := by
  cases o <;> simp_all [after]

/-- The response an outcome gives. -/
def answer (o : Host.Outcome State Fault Refusal) : Option Response := (after o).bind fun s => s.responses.head?

/-- A state, given by default where an outcome leaves none. -/
def stateOf (o : Host.Outcome State Fault Refusal) : State := (after o).getD State.reset

/-- Reset with a predictor. -/
def withPred (p : Byte) : State := { State.reset with pred := p }

/-- Reset with a BitWriter's content. -/
def withBw (out : List Byte) (part : List Bit) : State := { State.reset with bw := { part := part, out := out } }

/-- Reset with one request pending. -/
def asking (q : Request) : State := { State.reset with requests := [q] }

/-- 95_test_vectors.md program P2's image and frame. -/
def imageP2 : List Pixel := [⟨10#8, 200#8, 0#8⟩, ⟨2#8, 203#8, 255#8⟩]
def frameP2 : List Byte := [0x00#8, 0x02#8, 0x00#8, 0x01#8, 0x05#8, 0x61#8, 0x91#8, 0x38#8, 0x3F#8, 0xC0#8]

/-- A DECODE run of a 1 x 1 image whose first sample is LIT 171; and an ENCODE run of one pixel before its header. -/
def decodingLit : State := State.reset.withFetchWord 16 0b010101011
def encodingStart : State :=
  { State.reset with
    run := some .encode,
    fc := Fc.startEncode { width := 1#16, height := 1#16, pixels := [⟨255#8, 128#8, 7#8⟩] } }
def encodingRed : State := { encodingStart with fc := encodingStart.fc.emitHeader }

-- WellFormed

theorem test_read_length_0_ill_formed : (Instr.read [] 0 0).wellFormed = false := by decide
theorem test_read_length_17_ill_formed : (Instr.read [] 0 17).wellFormed = false := by decide
theorem test_read_length_bounds_well_formed :
    (Instr.read [] 0 1).wellFormed = true ∧ (Instr.read [] 0 16).wellFormed = true := by decide

-- Decoding: each constructor's word, from 30_encoding.md (R41, R42, R45, R53) and 95_test_vectors.md

theorem test_word_hdr : decode (.headerAt [0x03#8, 0x00#8, 0x02#8, 0x00#8]) = .ok (.hdr 768#16 512#16) := rfl
theorem test_word_lit : decode (.codeAt [0b00001001#8, 0b00000000#8] 0) = .ok (.lit 18#8) := rfl
theorem test_word_dlt : decode (.codeAt [0b00110001#8] 2) = .ok (.dlt true 0#3) := rfl
theorem test_word_append : decodeTableWord 8 0b0000 = some (.append []) := rfl
theorem test_word_finalize : decodeTableWord 8 0b0001 = some .finalize := rfl
theorem test_word_read :
    decodeRequest { Request.ofCode 0b0100#4 with buf := some [0xAB#8, 0xCD#8], bitOffset := 4, length := 8 } =
      .ok (.read [0xAB#8, 0xCD#8] 4 8) := rfl
theorem test_word_ch_reset : decodeTableWord 8 0b1000 = some .chReset := rfl
theorem test_word_encode_sample :
    decodeRequest { Request.ofCode 0b1001#4 with value := 255 } = .ok (.encodeSample 255#8) := rfl
theorem test_word_decode_sample :
    decodeRequest { Request.ofCode 0b1010#4 with sample := [true, false, false, true, true] } =
      .ok (.decodeSample (.dlt false 3#3)) := rfl
theorem test_word_encode : decodeTableWord 8 0b1100 = some (.encode 0 0 []) := rfl
theorem test_word_decode :
    decodeRequest { Request.ofCode 0b1101#4 with buf := some [1#8] } = .ok (.decode [1#8]) := rfl
theorem test_word_unassigned :
    [0b0010, 0b0011, 0b0101, 0b0110, 0b0111, 0b1011, 0b1110, 0b1111].map (decodeTableWord 8) =
      List.replicate 8 none := by decide
theorem test_table_word_lit : decodeTableWord 16 0b011111111 = some (.lit 255#8) := rfl
theorem test_table_word_dlt : decodeTableWord 8 0b10011 = some (.dlt false 3#3) := rfl
theorem test_table_word_hdr : decodeTableWord 32 0x03000200 = some (.hdr 768#16 512#16) := by decide

-- The BitWriter (95_test_vectors.md, BitWriter table; S1, S2; P1)

theorem test_append_emits_at_the_eighth_bit :
    (stateOf (exec (.append [true, false, true, true, false, true, false, false]) State.reset)).bw =
      { part := [], out := [0xB4#8] } := by decide
theorem test_append_20_bits :
    (stateOf (exec (.append (bitsN 16 0xABCD ++ [true, true, true, true])) State.reset)).bw =
      { part := [true, true, true, true], out := [0xAB#8, 0xCD#8] } := by decide
theorem test_finalize_pads_low :
    answer (exec .finalize (withBw [0xB4#8] [true, true])) = some (.buffer [0xB4#8, 0xC0#8]) := by decide
theorem test_finalize_of_nothing : answer (exec .finalize State.reset) = some (.buffer []) := by decide

-- The BitReader (95_test_vectors.md, BitReader table)

theorem test_read_across_bytes :
    answer (exec (.read [0xAB#8, 0xCD#8] 4 8) State.reset) = some (.value 0xBC#16) := by decide
theorem test_read_three_bytes :
    answer (exec (.read [0x12#8, 0x34#8, 0x56#8] 1 16) State.reset) = some (.value 0x2468#16) := by decide

-- The DeltaChannelCodec (95_test_vectors.md tables)

theorem test_ch_reset : (stateOf (exec .chReset (withPred 200#8))).pred = 0#8 := by decide
theorem test_encode_sample_minus_1 :
    answer (exec (.encodeSample 99#8) (withPred 100#8)) = some (.code (.dlt true 7#3)) := by decide
theorem test_encode_sample_no_wrap :
    answer (exec (.encodeSample 0#8) (withPred 255#8)) = some (.code (.lit 0#8)) := by decide
theorem test_decode_sample_minus_8 :
    answer (exec (.decodeSample (.dlt true 0#3)) (withPred 10#8)) = some (.sample 2#8) := by decide
theorem test_decode_sample_256 :
    exec (.decodeSample (.dlt false 7#3)) (withPred 249#8) = .next ((withPred 249#8).raise .deltaOutOfRange) := rfl

-- The FrameCodec (95_test_vectors.md, FrameCodec table; P2, P6)

theorem test_encode_p2 :
    answer (exec (encodeImage 2#16 1#16 imageP2) State.reset) = some (.buffer frameP2) := by decide +kernel
theorem test_encode_both_defects :
    answer (exec (.encode 2 1 [⟨300, 0, 0⟩]) State.reset) = some (.error .invalidDimension) := by decide
theorem test_decode_p6 :
    answer (exec (.decode [0x00#8, 0x01#8, 0x00#8, 0x01#8, 0x7F#8, 0x80#8, 0x40#8, 0x5C#8]) State.reset) =
      some (.image 1#16 1#16 [⟨255#8, 1#8, 2#8⟩]) := by decide +kernel
theorem test_decode_last_byte_removed :
    answer (exec (.decode (frameP2.take 9)) State.reset) = some (.error .truncatedBuffer) := by decide +kernel

-- The wire formats, as the first step after reset

theorem test_step_lit : (stateOf (step decodingLit)).fc.chan.red = [171#8] ∧ (stateOf (step decodingLit)).fc.cur = 41 := by
  decide
theorem test_step_dlt :
    (stateOf (step (State.reset.withFetchWord 8 0b10111))).fc.pred = 7#8 ∧
      (stateOf (step (State.reset.withFetchWord 8 0b10111))).fc.cur = 37 := by decide
theorem test_step_hdr : (stateOf (step (State.reset.withFetchWord 32 0x03000200))).fc.count = 768 * 512 := by decide
theorem test_emit_lit : (stateOf (step encodingRed)).fc.bw = { part := [true], out := [0#8, 1#8, 0#8, 1#8, 0x7F#8] } := by
  decide +kernel

-- Witnesses: a concrete case that meets all hypotheses of the statement named after `witness_`

theorem witness_StepKeepsLawful_idle :
    (asking (Request.ofCode 0b0001#4)).Inv ∧
      step (asking (Request.ofCode 0b0001#4)) = .next (stateOf (step (asking (Request.ofCode 0b0001#4)))) :=
  ⟨⟨by decide, by decide, rfl⟩, rfl⟩

theorem witness_StepKeepsLawful_run : decodingLit.Inv ∧ step decodingLit = .next (stateOf (step decodingLit)) := by
  refine ⟨⟨by decide, by decide, ?_⟩, rfl⟩
  show (decodingLit.fc.positioned decodingLit.fc.cur ∧ ∀ c, (decodingLit.fc.chan.get c).length = decodingLit.fc.samplesDone c)
  refine ⟨⟨by decide, by decide, by decide, by decide⟩, ?_⟩
  intro c
  cases c <;> decide

theorem witness_StepRunsTheRequest :
    (asking (Request.ofCode 0b1000#4)).run = none ∧
      (asking (Request.ofCode 0b1000#4)).requests = Request.ofCode 0b1000#4 :: [] ∧
      decode (.request (Request.ofCode 0b1000#4)) = .ok .chReset := ⟨rfl, rfl, rfl⟩

theorem witness_StepRunsTheItemOfTheRun :
    ((State.reset.withFetchWord 32 0x00020001).run = some .decode ∧
      (State.reset.withFetchWord 32 0x00020001).fc.headerDone = false ∧
      decode (.headerAt (State.reset.withFetchWord 32 0x00020001).fc.buf) = .ok (.hdr 2#16 1#16)) ∧
    (decodingLit.run = some .decode ∧ decodingLit.fc.headerDone = true ∧ decodingLit.fc.ch = some .red ∧
      decodingLit.fc.idx < decodingLit.fc.count ∧
      decode (.codeAt decodingLit.fc.buf decodingLit.fc.cur) = .ok (.lit 171#8)) ∧
    (encodingStart.run = some .encode ∧ encodingStart.fc.headerDone = false) ∧
    (encodingRed.run = some .encode ∧ encodingRed.fc.headerDone = true ∧ encodingRed.fc.ch = some .red ∧
      encodingRed.fc.idx < encodingRed.fc.count ∧ encodingRed.fc.pixels[encodingRed.fc.idx]? = some ⟨255#8, 128#8, 7#8⟩) :=
  ⟨⟨rfl, rfl, rfl⟩, ⟨rfl, rfl, rfl, by decide, rfl⟩, ⟨rfl, rfl⟩, rfl, rfl, rfl, by decide, rfl⟩

/-- A DECODE run whose buffer ends at its header (S6), and one of 3 bytes that has yet to read it. -/
def truncatedBody : State :=
  { State.reset with run := some .decode, fc := (Fc.startDecode [0#8, 2#8, 0#8, 1#8]).takeHeader 2#16 1#16 }
def truncatedHeader : State := { State.reset with run := some .decode, fc := Fc.startDecode [0#8, 2#8, 0#8] }

theorem witness_StepEndsATruncatedDecode :
    (truncatedHeader.run = some .decode ∧ truncatedHeader.fc.headerDone = false ∧ truncatedHeader.fc.buf.length < 4) ∧
    (truncatedBody.run = some .decode ∧ truncatedBody.fc.headerDone = true ∧ truncatedBody.fc.ch = some .red ∧
      truncatedBody.fc.idx < truncatedBody.fc.count ∧ parse truncatedBody.fc.buf truncatedBody.fc.cur = none) :=
  ⟨⟨rfl, rfl, by decide⟩, rfl, rfl, rfl, by decide, rfl⟩

theorem witness_StepWithoutARequestIsRefused : State.reset.run = none ∧ State.reset.requests = [] := ⟨rfl, rfl⟩

theorem witness_UnassignedCommandCodeIsRefused :
    (asking (Request.ofCode 0b0010#4)).run = none ∧
      (asking (Request.ofCode 0b0010#4)).requests = Request.ofCode 0b0010#4 :: [] ∧
      (Request.ofCode 0b0010#4).code ∈
        [0b0010#4, 0b0011#4, 0b0101#4, 0b0110#4, 0b0111#4, 0b1011#4, 0b1110#4, 0b1111#4] := by decide

/-- READ of 0 and of 17 bits, READ with no buffer, DECODE with none, ENCODE_SAMPLE 256, DECODE_SAMPLE of 4 bits. -/
def badRequests : List Request :=
  [{ Request.ofCode 0b0100#4 with length := 0 }, { Request.ofCode 0b0100#4 with length := 17 },
    { Request.ofCode 0b0100#4 with buf := none, length := 16 }, { Request.ofCode 0b1101#4 with buf := none },
    { Request.ofCode 0b1001#4 with value := 256 }, { Request.ofCode 0b1010#4 with sample := [true, false, false, false] }]

theorem witness_RequestOutsideItsTypesIsRefused :
    (∀ q ∈ badRequests, (asking q).run = none ∧ (asking q).requests = q :: []) ∧
      (badRequests.map fun q => (q.code, q.length, q.buf, q.value)) =
        [(0b0100#4, 0, some [], 0), (0b0100#4, 17, some [], 0), (0b0100#4, 16, none, 0), (0b1101#4, 1, none, 0),
          (0b1001#4, 1, some [], 256), (0b1010#4, 1, some [], 0)] ∧
      ∀ c : Code, [true, false, false, false] ≠ ser c := by
  refine ⟨by decide, by decide, ?_⟩
  intro c h
  cases c <;> simp [ser, bitsN] at h

theorem witness_RequestIsAtomic :
    (asking (Request.ofCode 0b0000#4)).run = none ∧
      step (asking (Request.ofCode 0b0000#4)) = .next (stateOf (step (asking (Request.ofCode 0b0000#4)))) := ⟨rfl, rfl⟩

theorem witness_RunLeavesTheCallersUnits :
    (decodingLit.run ≠ none ∧ step decodingLit = .next (stateOf (step decodingLit))) ∧
      (truncatedBody.run ≠ none ∧ step truncatedBody = .next (stateOf (step truncatedBody))) :=
  ⟨⟨by decide, rfl⟩, by decide, rfl⟩

theorem witness_OutputBufferOnlyGrows :
    step (asking (Request.ofCode 0b0001#4)) = .next (stateOf (step (asking (Request.ofCode 0b0001#4)))) := rfl

theorem witness_OperationsRaiseOnlyTheirKinds :
    isOperation (.decodeSample (.dlt true 7#3)) = true ∧
      exec (.decodeSample (.dlt true 7#3)) State.reset = .next (State.reset.raise .deltaOutOfRange) ∧
      (State.reset.raise .deltaOutOfRange).responses = .error .deltaOutOfRange :: State.reset.responses := ⟨rfl, rfl, rfl⟩

theorem witness_ErrorChangesNoRegister :
    isOperation (.read [0xAB#8, 0xCD#8] 9 8) = true ∧
      exec (.read [0xAB#8, 0xCD#8] 9 8) State.reset = .next (State.reset.raise .truncatedBuffer) ∧
      (State.reset.raise .truncatedBuffer).responses = .error .truncatedBuffer :: State.reset.responses := ⟨rfl, rfl, rfl⟩

theorem witness_DecodeInvertsEncode : (Instr.read [1#8] 3 16).wellFormed = true := rfl

theorem witness_DecodedInstructionIsWellFormed :
    decode (.request { Request.ofCode 0b0100#4 with length := 16 }) = .ok (.read [] 0 16) := rfl

theorem witness_DeltaFieldsAreABijection : ((-8 : Int) ≤ -8 ∧ (-8 : Int) ≤ 7) ∧ ((-8 : Int) ≤ 7 ∧ (7 : Int) ≤ 7) := by
  decide

theorem witness_ParseInvertsSer :
    unpack [0b01100010#8] = [false] ++ ser (.dlt true 0#3) ++ [true, false] := by decide

theorem witness_ParsedCodeStandsInTheBuffer : parse [0b01100010#8] 1 = some (.dlt true 0#3, 5) := rfl

theorem witness_StreamPositionIsMsbFirst : 15 < 8 * [0xAB#8, 0xCD#8].length := by decide

theorem witness_BitReadIsTheSumOfItsBits :
    4 + 12 ≤ 8 * [0xAB#8, 0xCD#8].length ∧ 8 * [0xAB#8, 0xCD#8].length < 4 + 13 := by decide

theorem witness_BitReadSplits : 4 + 3 + 9 ≤ 8 * [0xAB#8, 0xCD#8].length := by decide

theorem witness_ReadReturnsTheBits : 1 ≤ 16 ∧ 16 ≤ 16 ∧ 0 + 16 ≤ 8 * [0xAB#8, 0xCD#8].length := by decide

theorem witness_ReadBeyondTheBufferFails : 1 ≤ 8 ∧ 8 ≤ 16 ∧ 8 * [0xAB#8, 0xCD#8].length < 9 + 8 := by decide

theorem witness_ReadOfABadLengthIsRefused : (0 = 0 ∨ 16 < 0) ∧ (17 = 0 ∨ 16 < 17) := by decide

theorem witness_ReadsInsideAReadSucceed :
    1 ≤ 3 ∧ 4 ≤ 7 ∧ 7 + 3 ≤ 4 + 8 ∧
      exec (.read [0xAB#8, 0xCD#8] 4 8) State.reset =
        .next { State.reset with responses := .value 0xBC#16 :: State.reset.responses } :=
  ⟨by decide, by decide, by decide, rfl⟩

theorem witness_AppendAddsBitsInOrder : (withBw [0xB4#8] (List.replicate 7 true)).bw.part.length ≤ 7 := by decide

theorem witness_FinalizePadsAndReturnsTheBuffer :
    (withBw [] []).bw.part.length ≤ 7 ∧ (withBw [] []).bw.part = [] ∧
      (withBw [] (List.replicate 7 true)).bw.part.length ≤ 7 ∧ (withBw [] (List.replicate 7 true)).bw.part ≠ [] := by
  decide

theorem witness_FinalizeIsIdempotent :
    ∀ i ∈ [Instr.finalize, .append [], .finalize], i = .finalize ∨ i = .append [] := by decide

theorem witness_AppendObeysItsLaws :
    State.reset.bw.part = [] ∧ State.reset.bw.out = [] ∧ 9 + 2 ≤ (List.replicate 11 true).length := by decide

theorem witness_AppendAfterFinalizeStartsANewByte : (withBw [] [true, false, true]).bw.part.length ≤ 7 := by decide

theorem witness_RegisterFormOfTheWriter :
    (withBw [] (List.replicate 6 true)).bw.part.length < 7 ∧ (withBw [] (List.replicate 7 true)).bw.part.length = 7 ∧
      1 ≤ (withBw [] [true]).bw.part.length ∧ (withBw [] [true]).bw.part.length ≤ 7 := by decide

theorem witness_ChResetZeroesThePredictor :
    (7#8).toNat ≤ 7 ∧ 8 ≤ (8#8).toNat ∧ Fc.reset.idx = 0 ∧ ({ Fc.reset with idx := 1 } : Fc).idx ≠ 0 := by decide

theorem witness_EncodeSampleChoosesTheCode :
    (((91#8).toNat : Int) - (withPred 100#8).pred.toNat < -8) ∧ (7 < ((108#8).toNat : Int) - (withPred 100#8).pred.toNat) ∧
      (-8 ≤ ((92#8).toNat : Int) - (withPred 100#8).pred.toNat ∧ ((92#8).toNat : Int) - (withPred 100#8).pred.toNat ≤ 7) ∧
      (-8 ≤ ((107#8).toNat : Int) - (withPred 100#8).pred.toNat ∧
        ((107#8).toNat : Int) - (withPred 100#8).pred.toNat ≤ 7) := by decide

theorem witness_DecodeSampleReconstructsTheValue :
    (((0#8).toNat : Int) = (withPred 8#8).pred.toNat + (if true = true then ((0#3).toNat : Int) - 8 else (0#3).toNat)) ∧
      (((255#8).toNat : Int) =
        (withPred 248#8).pred.toNat + (if false = true then ((7#3).toNat : Int) - 8 else (7#3).toNat)) := by decide

theorem witness_DecodeSampleOutOfRangeRaises :
    (((withPred 7#8).pred.toNat : Int) + (if true = true then ((0#3).toNat : Int) - 8 else (0#3).toNat) < 0) ∧
      (255 < ((withPred 249#8).pred.toNat : Int) + (if false = true then ((7#3).toNat : Int) - 8 else (7#3).toNat)) := by
  decide

theorem witness_EncodeReturnsTheFrame :
    imageP2.length = (2#16).toNat * (1#16).toNat ∧ ([] : List Pixel).length = (0#16).toNat * (5#16).toNat := by decide

theorem witness_EncodeValidatesItsRequest :
    ((65536 : Int) < 0 ∨ 65535 < (65536 : Int)) ∧ (-1 : Int) < 0 ∧ ((([⟨1, 2, 3⟩] : List RawPixel).length : Int) ≠ 2 * 1) ∧
      (0 ≤ (1 : Int) ∧ (1 : Int) ≤ 65535 ∧ (([⟨0, -1, 0⟩] : List RawPixel).length : Int) = 1 * 1 ∧
        ∃ px ∈ ([⟨0, -1, 0⟩] : List RawPixel), ∃ x ∈ [px.red, px.green, px.blue], x < 0 ∨ 255 < x) ∧
      ∃ px ∈ ([⟨256, 0, 0⟩] : List RawPixel), ∃ x ∈ [px.red, px.green, px.blue], x < 0 ∨ 255 < x := by decide

theorem witness_FrameRoundTrips : imageP2.length = (2#16).toNat * (1#16).toNat := by decide

theorem witness_ShortenedFrameFails :
    ([] : List Pixel).length = (0#16).toNat * (5#16).toNat ∧
      exec (encodeImage 0#16 5#16 []) State.reset =
        .next { State.reset with responses := .buffer [0#8, 0#8, 0#8, 5#8] :: State.reset.responses } ∧
      3 < [0#8, 0#8, 0#8, 5#8].length :=
  ⟨rfl, next_of_after (by decide +kernel), by decide⟩

theorem witness_DecodeIgnoresWhatFollows :
    exec (.decode [0x00#8, 0x01#8, 0x00#8, 0x01#8, 0x84#8, 0x20#8]) State.reset =
      .next { State.reset with
        responses := .image 1#16 1#16 [⟨0#8, 0#8, 0#8⟩] :: State.reset.responses } := rfl

theorem witness_DecodedImageHasItsSize :
    exec (.decode [0#8, 0#8, 0#8, 5#8]) State.reset =
      .next { State.reset with responses := .image 0#16 5#16 [] :: State.reset.responses } := rfl

theorem witness_SteppedDecodeAgreesWithDecode : State.reset.run = none ∧ State.reset.fc = Fc.reset := ⟨rfl, rfl⟩

theorem witness_SteppedEncodeAgreesWithEncode :
    State.reset.run = none ∧ State.reset.fc = Fc.reset ∧ imageP2.length = (2#16).toNat * (1#16).toNat :=
  ⟨rfl, rfl, by decide⟩

theorem witness_HeaderOpensADecode :
    truncatedHeader.run = some .decode ∧ truncatedHeader.fc.headerDone = false := ⟨rfl, rfl⟩

theorem witness_HeaderOpensAnEncode :
    encodingStart.run = some .encode ∧ encodingStart.fc.headerDone = false ∧ encodingStart.fc.bw.part.length ≤ 7 :=
  ⟨rfl, rfl, by decide⟩

theorem witness_CodeIsOneSampleOfADecode :
    decodingLit.run = some .decode ∧ decodingLit.fc.headerDone = true ∧ decodingLit.fc.ch = some .red ∧
      decodingLit.fc.idx < decodingLit.fc.count ∧
      ((7#8).toNat : Int) = ((if decodingLit.fc.idx = 0 then 0#8 else decodingLit.fc.pred).toNat : Int) +
        (if false = true then ((7#3).toNat : Int) - 8 else (7#3).toNat) :=
  ⟨rfl, rfl, rfl, by decide, by decide⟩

theorem witness_DeltaOutOfRangeEndsADecode :
    decodingLit.run = some .decode ∧ decodingLit.fc.headerDone = true ∧ decodingLit.fc.ch = some .red ∧
      decodingLit.fc.idx < decodingLit.fc.count ∧
      ((if decodingLit.fc.idx = 0 then 0#8 else decodingLit.fc.pred).toNat : Int) +
        (if true = true then ((7#3).toNat : Int) - 8 else (7#3).toNat) < 0 :=
  ⟨rfl, rfl, rfl, by decide, by decide⟩

/-- The last sample of blue with predictor 249, where a delta of 7 leaves 0..255 upwards. -/
def decodingHigh : State :=
  { decodingLit with fc := { decodingLit.fc with count := 2, ch := some .blue, idx := 1, pred := 249#8 } }

theorem witness_DeltaOutOfRangeEndsADecode_high :
    decodingHigh.run = some .decode ∧ decodingHigh.fc.headerDone = true ∧ decodingHigh.fc.ch = some .blue ∧
      decodingHigh.fc.idx < decodingHigh.fc.count ∧
      255 < ((if decodingHigh.fc.idx = 0 then 0#8 else decodingHigh.fc.pred).toNat : Int) +
        (if false = true then ((7#3).toNat : Int) - 8 else (7#3).toNat) :=
  ⟨rfl, rfl, rfl, by decide, by decide⟩

theorem witness_CodeIsOneSampleOfAnEncode :
    encodingRed.run = some .encode ∧ encodingRed.fc.headerDone = true ∧ encodingRed.fc.ch = some .red ∧
      encodingRed.fc.idx < encodingRed.fc.count ∧ encodingRed.fc.pixels[encodingRed.fc.idx]? = some ⟨255#8, 128#8, 7#8⟩ ∧
      encodingRed.fc.bw.part.length ≤ 7 ∧
      encodeValue (if encodingRed.fc.idx = 0 then 0#8 else encodingRed.fc.pred)
        (component ⟨255#8, 128#8, 7#8⟩ .red) = .lit 255#8 :=
  ⟨rfl, rfl, rfl, by decide, rfl, by decide +kernel, by decide +kernel⟩

/-- A run that has done its one sample of blue, and one whose channels are all done. -/
def blueComplete : State := { decodingLit with fc := { decodingLit.fc with ch := some .blue, idx := 1 } }
def allDone : State := { decodingLit with fc := { decodingLit.fc with ch := none, idx := 0 } }

theorem witness_SequencerMovesThroughTheChannels :
    (blueComplete.run = some .decode ∧ blueComplete.fc.headerDone = true ∧ blueComplete.fc.ch = some .blue ∧
      blueComplete.fc.count ≤ blueComplete.fc.idx) ∧
    (allDone.run = some .decode ∧ allDone.fc.headerDone = true ∧ allDone.fc.ch = none) :=
  ⟨⟨rfl, rfl, rfl, by decide⟩, rfl, rfl, rfl⟩

theorem witness_WireFormatOutsideARunIsRefused :
    State.reset.run = none ∧ (decodingLit.run ≠ none ∧ decodingLit.fc.headerDone = true) ∧
      (truncatedHeader.run ≠ none ∧ truncatedHeader.fc.headerDone = false) ∧
      (allDone.run ≠ none ∧ allDone.fc.ch = none) ∧
      (blueComplete.run ≠ none ∧ blueComplete.fc.count ≤ blueComplete.fc.idx) ∧
      (encodingStart.run = some .encode ∧ encodingStart.fc.headerDone = false ∧ 2#16 ≠ encodingStart.fc.width) ∧
      (encodingRed.run = some .encode ∧ encodingRed.fc.headerDone = true ∧ encodingRed.fc.ch = some .red ∧
        encodingRed.fc.idx < encodingRed.fc.count) ∧
      ∀ px, encodingRed.fc.pixels[encodingRed.fc.idx]? = some px →
        encodeValue (if encodingRed.fc.idx = 0 then 0#8 else encodingRed.fc.pred) (component px .red) ≠ .dlt true 7#3 := by
  refine ⟨by decide, by decide, by decide, by decide, by decide, by decide, by decide, ?_⟩
  intro px h
  cases Option.some.inj h
  decide

end Sys2Proof.Tests
end

section
/-! PROOFS. The buffer's bit numbering and the value of a read: 20_memory.md rules R26 and R28. -/

namespace Sys2Proof

/-- `bits_n(v)` position by position (section 6.2): element i is value bit `n - 1 - i`. -/
theorem bitsN_getElem? (n v i : Nat) (hi : i < n) : (bitsN n v)[i]? = some (v.testBit (n - 1 - i)) := by
  induction n generalizing i with
  | zero => omega
  | succ n ih =>
    cases i with
    | zero => simp [bitsN]
    | succ i =>
      rw [bitsN, List.getElem?_cons_succ, ih i (by omega)]
      congr 2
      omega

/-- R26's numbering does not depend on what precedes by whole bytes: a byte in front moves every position by 8. -/
theorem bitAt_cons_add_eight (b : Byte) (buf : List Byte) (p : Nat) : bitAt (b :: buf) (p + 8) = bitAt buf p := by
  simp [bitAt]

/-- The first eight positions are the first byte's bits, most significant first. -/
theorem bitAt_cons_of_lt (b : Byte) (buf : List Byte) (p : Nat) (hp : p < 8) :
    bitAt (b :: buf) p = some (b.toNat.testBit (7 - p)) := by
  simp [bitAt, Nat.div_eq_of_lt hp, Nat.mod_eq_of_lt hp]

/-- R26: `bit(buf, p) = unpack(buf)[p]`, at every p: beyond the buffer neither has a bit. -/
theorem unpack_getElem? (buf : List Byte) (p : Nat) : (unpack buf)[p]? = bitAt buf p := by
  induction buf generalizing p with
  | nil => rfl
  | cons b buf ih =>
    rw [unpack_cons]
    rcases Nat.lt_or_ge p 8 with hp | hp
    · rw [List.getElem?_append_left (by simpa using hp), bitsN_getElem? 8 _ p hp, bitAt_cons_of_lt b buf p hp]
    · obtain ⟨q, rfl⟩ := Nat.exists_eq_add_of_le' hp
      rw [List.getElem?_append_right (by simp), bitsN_length, Nat.add_sub_cancel, ih, bitAt_cons_add_eight]

/-- Inside the buffer the bit at p is the named value bit of the byte at `p div 8` (R26). -/
theorem bitAt_eq_getLsbD (buf : List Byte) (p : Nat) (b : Byte) (hb : buf[p / 8]? = some b) :
    bitAt buf p = some (b.getLsbD (7 - p % 8)) := by
  rw [bitAt, hb, Option.map_some, BitVec.testBit_toNat]

/-- Settles O26: the byte at `p div 8` exists, `bitAt` names its value bit, and `unpack` agrees with `bitAt`. -/
theorem streamPositionIsMsbFirst : Obligations.StreamPositionIsMsbFirst := by
  intro buf p hp
  have hbyte : p / 8 < buf.length := by omega
  have hb : buf[p / 8]? = some buf[p / 8] := List.getElem?_eq_getElem hbyte
  have hbit := bitAt_eq_getLsbD buf p _ hb
  exact ⟨buf[p / 8], hb, hbit, (unpack_getElem? buf p).trans hbit, unpack_length buf⟩

/-- `uint(s)` as a weighted sum (section 6.2): element i of s has weight `2^(len(s) - 1 - i)`. -/
theorem uint_eq_sum (s : List Bit) :
    uint s = ∑ i ∈ Finset.range s.length, ((s[i]?).getD false).toNat * 2 ^ (s.length - 1 - i) := by
  induction s with
  | nil => rfl
  | cons b s ih =>
    have hweight (i : Nat) : s.length + 1 - 1 - (i + 1) = s.length - 1 - i := by omega
    rw [uint_cons, ih, List.length_cons, Finset.sum_range_succ', add_comm]
    simp only [List.getElem?_cons_succ, hweight]
    rfl

/-- The bits a read takes are those at its own positions of the stream (R26, R28). -/
theorem unpack_slice_getElem? (buf : List Byte) (p n i : Nat) (hi : i < n) :
    (((unpack buf).drop p).take n)[i]? = bitAt buf (p + i) := by
  rw [List.getElem?_take_of_lt hi, List.getElem?_drop, unpack_getElem?]

theorem unpack_slice_length (buf : List Byte) (p n : Nat) (h : p + n ≤ 8 * buf.length) :
    (((unpack buf).drop p).take n).length = n := by
  simp only [List.length_take, List.length_drop, unpack_length]
  omega

/-- R28: inside the buffer a read is the weighted sum of the bits at its positions. -/
theorem bitRead_eq_sum (buf : List Byte) (p n : Nat) (h : p + n ≤ 8 * buf.length) :
    bitRead buf p n = ∑ i ∈ Finset.range n, ((bitAt buf (p + i)).getD false).toNat * 2 ^ (n - 1 - i) := by
  rw [bitRead, uint_eq_sum, unpack_slice_length buf p n h]
  refine Finset.sum_congr rfl fun i hi => ?_
  rw [unpack_slice_getElem? buf p n i (Finset.mem_range.mp hi)]

/-- A read of no bits is 0 wherever it stands (R28). -/
@[simp] theorem bitRead_zero (buf : List Byte) (p : Nat) : bitRead buf p 0 = 0 := by
  simp [bitRead]

/-- Settles O27: the bounds test of `readBits`, and the sum over the positions of the slice. -/
theorem bitReadIsTheSumOfItsBits : Obligations.BitReadIsTheSumOfItsBits := by
  intro buf p n
  refine ⟨fun hin => ⟨?_, rfl, bitRead_eq_sum buf p n hin⟩, (readBits_eq_none buf p n).mpr, bitRead_zero buf p⟩
  exact (readBits_eq_some buf p n _).mpr ⟨hin, rfl⟩

end Sys2Proof
end

section
/-! PROOFS. The header as bits, as bytes and read back: 30_encoding.md rule R45, with the packing and reading rules it
rests on (R27, R28, R52). -/

namespace Sys2Proof

/-- `bits_{m+n}(v)` (section 6.2): the high m bits of v's low m + n, then the low n. -/
theorem bitsN_add (m n v : Nat) : bitsN (m + n) v = bitsN m (v / 2 ^ n) ++ bitsN n v := by
  induction m with
  | zero => simp [bitsN]
  | succ m ih => rw [Nat.succ_add, bitsN, ih, bitsN, Nat.testBit_div_two_pow, List.cons_append]

theorem byteOf_bitsN (v : Nat) : byteOf (bitsN 8 v) = BitVec.ofNat 8 v := by
  rw [byteOf, uint_bitsN]
  exact BitVec.eq_of_toNat_eq (by simp)

/-- R52: the bytes a bit sequence is packed into stand for it and the padding that completes the last of them. -/
theorem unpack_packBits (s : List Bit) : unpack (packBits s) = s ++ zeros (padCount s.length) := by
  induction s using packBits.induct with
  | case1 b7 b6 b5 b4 b3 b2 b1 b0 rest ih =>
    have hpad : padCount (b7 :: b6 :: b5 :: b4 :: b3 :: b2 :: b1 :: b0 :: rest).length = padCount rest.length := by
      simp only [padCount, List.length_cons]; omega
    rw [hpad, packBits, ← List.singleton_append, unpack_append, unpack_byteOf _ rfl, ih]
    rfl
  | case2 => rfl
  | case3 s hlong hne =>
    have hlen : s.length < 8 := by
      by_contra hge
      match s, Nat.le_of_not_lt hge with
      | b7 :: b6 :: b5 :: b4 :: b3 :: b2 :: b1 :: b0 :: rest, _ => exact hlong b7 b6 b5 b4 b3 b2 b1 b0 rest rfl
    have hpos : 0 < s.length := List.length_pos_iff.mpr hne
    have hpad : padCount s.length = 8 - s.length := by simp only [padCount]; omega
    rw [hpad, packBits, unpack_byteOf _ (by simp; omega)]
    all_goals assumption

/-- R28: a read of bits that stand in the stream gives the number they spell, whatever is before and after them. -/
theorem readBits_of_unpack_eq (buf : List Byte) (before s after : List Bit) (h : unpack buf = before ++ s ++ after) :
    readBits buf before.length s.length = some (uint s) := by
  have hlen : 8 * buf.length = before.length + s.length + after.length := by
    simpa [h, Nat.add_assoc] using (unpack_length buf).symm
  refine (readBits_eq_some _ _ _ _).mpr ⟨by omega, ?_⟩
  rw [bitRead, h, List.append_assoc, List.drop_left, List.take_left]

/-- R45: element p of the header is bit 15 - p of the width. -/
theorem headerBits_getElem?_width (w h : Half) (p : Nat) (hp : p < 16) :
    (headerBits w h)[p]? = some (w.getLsbD (15 - p)) := by
  rw [headerBits, List.getElem?_append_left (by simpa using hp), bitsN_getElem? _ _ _ hp, BitVec.testBit_toNat]

/-- R45: element 16 + p of the header is bit 15 - p of the height. -/
theorem headerBits_getElem?_height (w h : Half) (p : Nat) (hp : p < 16) :
    (headerBits w h)[16 + p]? = some (h.getLsbD (15 - p)) := by
  rw [headerBits, List.getElem?_append_right (by simp), bitsN_length, Nat.add_sub_cancel_left,
    bitsN_getElem? _ _ _ hp, BitVec.testBit_toNat]

/-- R45: the header's four bytes, the high byte of each field first. -/
theorem packBits_headerBits (w h : Half) :
    packBits (headerBits w h) =
      [BitVec.ofNat 8 (w.toNat / 256), BitVec.ofNat 8 (w.toNat % 256), BitVec.ofNat 8 (h.toNat / 256),
        BitVec.ofNat 8 (h.toNat % 256)] := by
  have hsplit (v : Nat) : bitsN 16 v = bitsN 8 (v / 256) ++ bitsN 8 v := bitsN_add 8 8 v
  have hlow (v : Nat) : BitVec.ofNat 8 (v % 256) = BitVec.ofNat 8 v := BitVec.eq_of_toNat_eq (by simp)
  rw [headerBits, hsplit, hsplit, List.append_assoc, packBits_append _ _ (bitsN_length 8 _),
    packBits_append _ _ (bitsN_length 8 _), packBits_append _ _ (bitsN_length 8 _),
    ← List.append_nil (bitsN 8 h.toNat), packBits_append _ _ (bitsN_length 8 _)]
  simp only [byteOf_bitsN, hlow, packBits_nil]

/-- R45, R82 step 1: a buffer whose stream begins with a header yields that header's width and height. -/
theorem decodeHeader_of_unpack_eq (buf : List Byte) (w h : Half) (after : List Bit)
    (hbuf : unpack buf = headerBits w h ++ after) : decodeHeader buf = some (w, h) := by
  have hw : readBits buf 0 16 = some w.toNat := by
    have hread := readBits_of_unpack_eq buf [] (bitsN 16 w.toNat) (bitsN 16 h.toNat ++ after)
      (by simp [hbuf, headerBits])
    rwa [bitsN_length, uint_bitsN, Nat.mod_eq_of_lt w.isLt] at hread
  have hh : readBits buf 16 16 = some h.toNat := by
    have hread := readBits_of_unpack_eq buf (bitsN 16 w.toNat) (bitsN 16 h.toNat) after hbuf
    rwa [bitsN_length, bitsN_length, uint_bitsN, Nat.mod_eq_of_lt h.isLt] at hread
  simp [decodeHeader, hw, hh]

/-- A buffer that starts with a packed header has that header's bits at the front of its stream. -/
theorem unpack_packBits_headerBits_append (w h : Half) (rest : List Byte) :
    unpack (packBits (headerBits w h) ++ rest) = headerBits w h ++ unpack rest := by
  have hnoPad : zeros (padCount (headerBits w h).length) = [] := by rw [headerBits_length]; rfl
  rw [unpack_append, unpack_packBits, hnoPad, List.append_nil]

/-- Settles O20: the two fields bit by bit, the four bytes, and the read-back through the packed header's stream. -/
theorem headerIsWidthThenHeight : Obligations.HeaderIsWidthThenHeight := by
  intro w h
  refine ⟨headerBits_length w h, headerBits_getElem?_width w h, headerBits_getElem?_height w h,
    packBits_headerBits w h, fun rest => ?_⟩
  have hread := decodeHeader_of_unpack_eq _ w h _ (unpack_packBits_headerBits_append w h rest)
  simp only [decode, hread]

end Sys2Proof
end

section
/-! PROOFS. The spelling of a per-sample code and the fields of its delta: 30_encoding.md rules R41, R42, R43. -/

namespace Sys2Proof

/-- R41: the pattern `0vvvvvvvv`. -/
theorem ser_lit (v : Byte) :
    ser (.lit v) =
      [false, v.getLsbD 7, v.getLsbD 6, v.getLsbD 5, v.getLsbD 4, v.getLsbD 3, v.getLsbD 2, v.getLsbD 1,
        v.getLsbD 0] := by
  simp only [ser, bitsN, BitVec.testBit_toNat]

/-- R42: the pattern `1smmm`. -/
theorem ser_dlt (s : Bit) (m : BitVec 3) :
    ser (.dlt s m) = [true, s, m.getLsbD 2, m.getLsbD 1, m.getLsbD 0] := by
  simp only [ser, bitsN, BitVec.testBit_toNat]

end Sys2Proof

namespace Sys2Proof.Machine

/-- R42: a code's delta is in the delta range. -/
theorem codeDelta_bounds (s : Bit) (m : BitVec 3) : -8 ≤ codeDelta s m ∧ codeDelta s m ≤ 7 := by
  have hm := m.isLt
  cases s with
  | false => rw [codeDelta_false]; omega
  | true => rw [codeDelta_true]; omega

@[simp] theorem deltaSign_iff (d : Int) : deltaSign d = true ↔ d < 0 := by
  simp [deltaSign]

/-- R43: the sign field of a code's delta is the code's own. -/
theorem deltaSign_codeDelta (s : Bit) (m : BitVec 3) : deltaSign (codeDelta s m) = s := by
  have hm := m.isLt
  cases s with
  | false => rw [deltaSign, codeDelta_false, decide_eq_false_iff_not]; omega
  | true => rw [deltaSign, codeDelta_true, decide_eq_true_iff]; omega

/-- R43: the magnitude field of a code's delta is the code's own. -/
theorem deltaMagnitude_codeDelta (s : Bit) (m : BitVec 3) : deltaMagnitude (codeDelta s m) = m := by
  have hm := m.isLt
  have hmag := deltaMagnitude_toNat (codeDelta s m)
  apply BitVec.eq_of_toNat_eq
  cases s with
  | false => rw [codeDelta_false] at hmag ⊢; omega
  | true => rw [codeDelta_true] at hmag ⊢; omega

/-- R43: the fields of a delta of the range decode to it. -/
theorem codeDelta_deltaFields (d : Int) (hlo : -8 ≤ d) (hhi : d ≤ 7) :
    codeDelta (deltaSign d) (deltaMagnitude d) = d := by
  have hmag := deltaMagnitude_toNat d
  cases hs : deltaSign d with
  | false =>
    have hd : ¬ d < 0 := by rw [← deltaSign_iff, hs]; decide
    rw [codeDelta_false]; omega
  | true =>
    have hd : d < 0 := (deltaSign_iff d).mp hs
    rw [codeDelta_true]; omega

/-- Settles O19: the two spellings, the range of the delta, and the sign field read back from it. -/
theorem codesAreSpelledAsTheirFormats : Obligations.CodesAreSpelledAsTheirFormats := by
  refine ⟨ser_lit, ser_dlt, fun s m => ?_⟩
  obtain ⟨hlo, hhi⟩ := codeDelta_bounds s m
  exact ⟨hlo, hhi, by rw [← deltaSign_iff, deltaSign_codeDelta]⟩

/-- Settles O21: the fields of a delta and the delta of the fields, each way round, and the two worked values. -/
theorem deltaFieldsAreABijection : Obligations.DeltaFieldsAreABijection := by
  refine ⟨fun d hlo hhi => ⟨deltaSign_iff d, deltaMagnitude_toNat d, codeDelta_deltaFields d hlo hhi⟩,
    fun s m => ⟨?_, ?_, deltaSign_codeDelta s m, deltaMagnitude_codeDelta s m⟩, rfl, rfl⟩
  · rintro rfl
    exact codeDelta_true m
  · rintro rfl
    exact codeDelta_false m

end Sys2Proof.Machine
end

section
/-! PROOFS. Repeated FINALIZEs and empty APPENDs: 40_bitwriter.md rule R60, with the rules for lists of instructions and
for the BitWriter's two operations (R58, R59) it rests on. -/

namespace Sys2Proof.Machine

@[simp] theorem execList_nil (s : State) : execList [] s = .next s := rfl

theorem execList_cons_of_next {i : Instr} {s t : State} (rest : List Instr) (h : exec i s = .next t) :
    execList (i :: rest) s = execList rest t := by
  simp only [execList, h]

/-- What every instruction of a list completes with and keeps, the whole list completes with and keeps. -/
theorem execList_keeps (P : State → Prop) (ops : List Instr)
    (hops : ∀ i ∈ ops, ∀ s, P s → ∃ t, exec i s = .next t ∧ P t) (s : State) (hs : P s) :
    ∃ u, execList ops s = .next u ∧ P u := by
  induction ops generalizing s with
  | nil => exact ⟨s, execList_nil s, hs⟩
  | cons i rest ih =>
    obtain ⟨t, hexec, ht⟩ := hops i List.mem_cons_self s hs
    rw [execList_cons_of_next rest hexec]
    exact ih (fun j hj => hops j (List.mem_cons_of_mem i hj)) t ht

theorem exec_append (bits : List Bit) (s : State) :
    exec (.append bits) s = .next ({ s with bw := s.bw.append bits }.respond .ok) := rfl

theorem exec_finalize (s : State) :
    exec .finalize s = .next ({ s with bw := s.bw.finalize }.respond (.buffer s.bw.finalize.out)) := rfl

/-- An empty APPEND changes no register (R58). -/
theorem exec_append_nil (s : State) : exec (.append []) s = .next (s.respond .ok) := by
  rw [exec_append, append_nil]

/-- R60: "because the partial buffer is empty". -/
theorem finalize_of_part_eq_nil (w : BitWriter) (h : w.part = []) : w.finalize = w := by
  rcases finalize_cases w with ⟨_, e⟩ | ⟨hne, _⟩
  · exact e
  · exact absurd h hne

/-- R60: with no bit pending, FINALIZE changes no register and returns the buffer as it stands. -/
theorem exec_finalize_of_part_eq_nil (s : State) (h : s.bw.part = []) :
    exec .finalize s = .next (s.respond (.buffer s.bw.out)) := by
  rw [exec_finalize, finalize_of_part_eq_nil s.bw h]

/-- With no bit pending, FINALIZE and the empty APPEND complete and leave the writer as it is. -/
theorem exec_keeps_flushed_bw (w : BitWriter) (hw : w.part = []) (i : Instr) (hi : i = .finalize ∨ i = .append [])
    (s : State) (hs : s.bw = w) : ∃ t, exec i s = .next t ∧ t.bw = w := by
  rcases hi with rfl | rfl
  · exact ⟨_, exec_finalize_of_part_eq_nil s (by rw [hs, hw]), hs⟩
  · exact ⟨_, exec_append_nil s, hs⟩

/-- R60 from any state with no bit pending: the operations complete, the writer stands, and a FINALIZE after them
returns the buffer as it stood. -/
theorem execList_keeps_flushed_bw (ops : List Instr) (hops : ∀ i ∈ ops, i = .finalize ∨ i = .append []) (t : State)
    (ht : t.bw.part = []) :
    ∃ u, execList ops t = .next u ∧ u.bw = t.bw ∧ exec .finalize u = .next (u.respond (.buffer t.bw.out)) := by
  obtain ⟨u, hrun, hbw⟩ := execList_keeps (fun v => v.bw = t.bw) ops
    (fun i hi => exec_keeps_flushed_bw t.bw ht i (hops i hi)) t rfl
  have hlast := exec_finalize_of_part_eq_nil u (by rw [hbw, ht])
  exact ⟨u, hrun, hbw, by rw [hlast, hbw]⟩

/-- Settles O35: FINALIZE leaves nothing pending, and from there every operation of the list keeps the writer. -/
theorem finalizeIsIdempotent : Obligations.FinalizeIsIdempotent := by
  intro s
  exact ⟨_, exec_finalize s, rfl, fun ops hops => execList_keeps_flushed_bw ops hops _ (finalize_part s.bw)⟩

end Sys2Proof.Machine
end

section
/-! PROOFS. READ: 41_bitreader.md rules R64 to R68, with the split of a read of 20_memory.md rule R29. -/

namespace Sys2Proof

/-- R29: a read splits anywhere inside the buffer. -/
theorem bitRead_add (buf : List Byte) (p a b : Nat) (h : p + a + b ≤ 8 * buf.length) :
    bitRead buf p (a + b) = bitRead buf p a * 2 ^ b + bitRead buf (p + a) b := by
  rw [bitRead, List.take_add, List.drop_drop, uint_append, unpack_slice_length buf (p + a) b h]
  rfl

/-- Settles O28: the slice of a read is the concatenation of its parts' slices. -/
theorem bitReadSplits : Obligations.BitReadSplits :=
  bitRead_add

theorem bitRead_lt (buf : List Byte) (p n : Nat) : bitRead buf p n < 2 ^ n :=
  (uint_lt _).trans_le (Nat.pow_le_pow_right (by decide) (List.length_take_le _ _))

/-- R68 (c): a read inside a read has the corresponding bits of its value. -/
theorem bitRead_inside (buf : List Byte) (p n q m : Nat) (hp : p ≤ q) (hq : q + m ≤ p + n)
    (h : p + n ≤ 8 * buf.length) :
    bitRead buf q m = bitRead buf p n / 2 ^ (p + n - (q + m)) % 2 ^ m := by
  obtain ⟨a, rfl⟩ := Nat.exists_eq_add_of_le hp
  obtain ⟨b, hb⟩ := Nat.exists_eq_add_of_le hq
  obtain rfl : n = a + m + b := by omega
  have hb' : p + (a + m + b) - (p + a + m) = b := by omega
  rw [hb', bitRead_add buf p (a + m) b (by omega), bitRead_add buf p a m (by omega), Nat.mul_comm _ (2 ^ b),
    Nat.mul_add_div (by positivity), Nat.div_eq_of_lt (bitRead_lt _ _ _), Nat.add_zero, Nat.mul_comm,
    Nat.mul_add_mod, Nat.mod_eq_of_lt (bitRead_lt _ _ _)]

end Sys2Proof

namespace Sys2Proof.Machine

/-- R64: a READ inside the buffer answers the value of its bits. -/
theorem exec_read_of_le (buf : List Byte) (p n : Nat) (s : State) (hn : 1 ≤ n ∧ n ≤ 16) (h : p + n ≤ 8 * buf.length) :
    exec (.read buf p n) s = .next (s.respond (.value (BitVec.ofNat 16 (bitRead buf p n)))) := by
  have hread : readBits buf p n = some (bitRead buf p n) := (readBits_eq_some buf p n _).mpr ⟨h, rfl⟩
  simp only [exec, execRead, if_pos ((readLengthOk_iff n).mpr hn), hread]

/-- R65: a READ that needs a bit beyond the buffer raises TruncatedBuffer. -/
theorem exec_read_of_lt (buf : List Byte) (p n : Nat) (s : State) (hn : 1 ≤ n ∧ n ≤ 16) (h : 8 * buf.length < p + n) :
    exec (.read buf p n) s = .next (s.raise .truncatedBuffer) := by
  simp only [exec, execRead, if_pos ((readLengthOk_iff n).mpr hn), (readBits_eq_none buf p n).mpr h]

/-- R67: a READ of a length outside 1..16 is refused. -/
theorem exec_read_of_bad_length (buf : List Byte) (p n : Nat) (s : State) (hn : ¬ (1 ≤ n ∧ n ≤ 16)) :
    exec (.read buf p n) s = .refused .readLength := by
  simp only [exec, execRead, if_neg (mt (readLengthOk_iff n).mp hn)]

/-- READ's value fits its 16-bit port (R64). -/
theorem toNat_port_bitRead (buf : List Byte) (p n : Nat) (hn : n ≤ 16) :
    (BitVec.ofNat 16 (bitRead buf p n)).toNat = bitRead buf p n := by
  rw [BitVec.toNat_ofNat]
  exact Nat.mod_eq_of_lt ((bitRead_lt buf p n).trans_le (Nat.pow_le_pow_right (by decide) hn))

/-- A READ that answers a value had its bits in the buffer, and answers them (R64, R65, R67). -/
theorem exec_read_value (buf : List Byte) (p n : Nat) (s : State) (v : Half)
    (h : exec (.read buf p n) s = .next (s.respond (.value v))) :
    n ≤ 16 ∧ p + n ≤ 8 * buf.length ∧ v.toNat = bitRead buf p n := by
  by_cases hn : 1 ≤ n ∧ n ≤ 16
  · rcases Nat.lt_or_ge (8 * buf.length) (p + n) with hlt | hle
    · rw [exec_read_of_lt buf p n s hn hlt] at h
      simp [State.raise, State.respond] at h
    · rw [exec_read_of_le buf p n s hn hle] at h
      have hv : BitVec.ofNat 16 (bitRead buf p n) = v := by simpa [State.respond] using h
      exact ⟨hn.2, hle, by rw [← hv, toNat_port_bitRead buf p n hn.2]⟩
  · rw [exec_read_of_bad_length buf p n s hn] at h
    cases h

/-- Settles O29: the READ is inside the buffer, and its value fits the port. -/
theorem readReturnsTheBits : Obligations.ReadReturnsTheBits := by
  intro buf p n s hlo hhi hin
  refine ⟨_, exec_read_of_le buf p n s ⟨hlo, hhi⟩ hin, ?_⟩
  rw [toNat_port_bitRead buf p n hhi]
  exact ⟨rfl, bitRead_lt buf p n⟩

/-- Settles O30: the bounds error, and its case of an empty buffer, whose bit count is 0. -/
theorem readBeyondTheBufferFails : Obligations.ReadBeyondTheBufferFails := by
  intro buf p n s hlo hhi
  refine ⟨exec_read_of_lt buf p n s ⟨hlo, hhi⟩, exec_read_of_lt [] p n s ⟨hlo, hhi⟩ ?_⟩
  rw [List.length_nil]
  omega

/-- Settles O31: the length is checked before the buffer is looked at. -/
theorem readOfABadLengthIsRefused : Obligations.ReadOfABadLengthIsRefused := by
  intro buf p n s hbad
  exact exec_read_of_bad_length buf p n s (by omega)

/-- Settles O32: the outer READ shows the bits are there, so the inner one reads its part of them. -/
theorem readsInsideAReadSucceed : Obligations.ReadsInsideAReadSucceed := by
  intro buf p n q m s v hm hp hq hread
  obtain ⟨hn, hin, hv⟩ := exec_read_value buf p n s v hread
  refine ⟨_, exec_read_of_le buf q m s ⟨hm, by omega⟩ (by omega), ?_⟩
  rw [toNat_port_bitRead buf q m (by omega), hv, bitRead_inside buf p n q m hp hq hin]

end Sys2Proof.Machine
end

section
/-! PROOFS. PARSE against SER: 42_delta_channel_codec.md rules R73 and R74, 30_encoding.md rule R47. -/

namespace Sys2Proof

/-- A read of one bit is that bit (R26, R28). -/
theorem readBits_one (buf : List Byte) (p : Nat) : readBits buf p 1 = (bitAt buf p).map Bool.toNat := by
  rw [← unpack_getElem?]
  rcases Nat.lt_or_ge p (unpack buf).length with hp | hp
  · have hin : p + 1 ≤ 8 * buf.length := by simpa using hp
    rw [List.getElem?_eq_getElem hp, (readBits_eq_some buf p 1 _).mpr ⟨hin, rfl⟩, bitRead, List.drop_eq_getElem_cons hp,
      List.take_succ_cons, List.take_zero, uint_cons]
    simp
  · have hout : 8 * buf.length < p + 1 := by simpa [Nat.lt_succ_iff] using hp
    rw [List.getElem?_eq_none hp, (readBits_eq_none buf p 1).mpr hout, Option.map_none]

theorem bitAt_eq_none (buf : List Byte) (p : Nat) : bitAt buf p = none ↔ 8 * buf.length ≤ p := by
  rw [← unpack_getElem?, List.getElem?_eq_none_iff, unpack_length]

/-- R74: PARSE undoes SER at any position of the stream. -/
theorem parse_of_unpack_eq (buf : List Byte) (before after : List Bit) (c : Code)
    (h : unpack buf = before ++ ser c ++ after) : parse buf before.length = some (c, (ser c).length) := by
  cases c with
  | lit v =>
    have hflag := readBits_of_unpack_eq buf before [false] (bitsN 8 v.toNat ++ after) (by simpa [ser] using h)
    have hvalue := readBits_of_unpack_eq buf (before ++ [false]) (bitsN 8 v.toNat) after (by simpa [ser] using h)
    rw [uint_bitsN, Nat.mod_eq_of_lt v.isLt, bitsN_length, List.length_append] at hvalue
    simp only [List.length_singleton] at hflag hvalue
    simp [parse, hflag, hvalue, uint_cons]
  | dlt s m =>
    have hflag := readBits_of_unpack_eq buf before [true] (s :: bitsN 3 m.toNat ++ after) (by simpa [ser] using h)
    have hsign := readBits_of_unpack_eq buf (before ++ [true]) [s] (bitsN 3 m.toNat ++ after) (by simpa [ser] using h)
    have hmag := readBits_of_unpack_eq buf (before ++ [true, s]) (bitsN 3 m.toNat) after (by simpa [ser] using h)
    rw [uint_bitsN, Nat.mod_eq_of_lt m.isLt, bitsN_length, List.length_append] at hmag
    simp only [List.length_append, List.length_cons, List.length_nil] at hflag hsign hmag
    cases s <;> simp [parse, hflag, hsign, hmag, uint_cons]

/-- Settles O23: the fields SER writes are what the reads of PARSE find. -/
theorem parseInvertsSer : Obligations.ParseInvertsSer :=
  parse_of_unpack_eq

/-- R74, when the code's bits are known to be those of the buffer from p on. -/
theorem parse_of_slice_eq (buf : List Byte) (p : Nat) (c : Code)
    (h : ((unpack buf).drop p).take (ser c).length = ser c) (hin : p + (ser c).length ≤ 8 * buf.length) :
    parse buf p = some (c, (ser c).length) := by
  have hsplit : unpack buf = (unpack buf).take p ++ ser c ++ ((unpack buf).drop p).drop (ser c).length := by
    have hslice := List.take_append_drop (ser c).length ((unpack buf).drop p)
    rw [h] at hslice
    rw [List.append_assoc, hslice, List.take_append_drop]
  have hp : ((unpack buf).take p).length = p := by rw [List.length_take, unpack_length]; omega
  simpa only [hp] using parse_of_unpack_eq buf _ _ c hsplit

/-- R41: nine bits that begin with flag 0 spell a literal code. -/
theorem exists_lit_of_flag (l : List Bit) (hlen : l.length = 9) (hflag : l[0]? = some false) :
    ∃ v, l = ser (.lit v) := by
  obtain _ | ⟨b, vs⟩ := l
  · cases hlen
  · have hvs : vs.length = 8 := by simpa using hlen
    obtain rfl : b = false := by simpa using hflag
    have hlt : uint vs < 256 := by simpa [hvs] using uint_lt vs
    refine ⟨BitVec.ofNat 8 (uint vs), ?_⟩
    have hbits := bitsN_uint_self vs
    rw [hvs] at hbits
    rw [ser, BitVec.toNat_ofNat, Nat.mod_eq_of_lt hlt, hbits]

/-- R42: five bits that begin with flag 1 spell a delta code. -/
theorem exists_dlt_of_flag (l : List Bit) (hlen : l.length = 5) (hflag : l[0]? = some true) :
    ∃ s m, l = ser (.dlt s m) := by
  obtain _ | ⟨b, _ | ⟨s, ms⟩⟩ := l
  · cases hlen
  · cases hlen
  · have hms : ms.length = 3 := by simpa using hlen
    obtain rfl : b = true := by simpa using hflag
    have hlt : uint ms < 8 := by simpa [hms] using uint_lt ms
    refine ⟨s, BitVec.ofNat 3 (uint ms), ?_⟩
    have hbits := bitsN_uint_self ms
    rw [hms] at hbits
    rw [ser, BitVec.toNat_ofNat, Nat.mod_eq_of_lt hlt, hbits]

/-- R74: whatever bits stand at p, the code they begin is read if it fits. -/
theorem parse_of_flag (buf : List Byte) (p n : Nat) (b : Bit) (hflag : bitAt buf p = some b)
    (hn : n = if b then 5 else 9) (hin : p + n ≤ 8 * buf.length) :
    ∃ c, parse buf p = some (c, n) ∧ ((unpack buf).drop p).take n = ser c ∧ (ser c).length = n := by
  have hlen := unpack_slice_length buf p n hin
  have hhead : (((unpack buf).drop p).take n)[0]? = some b := by
    rw [unpack_slice_getElem? buf p n 0 (by rw [hn]; split <;> decide), Nat.add_zero, hflag]
  have hcode : ∃ c, ((unpack buf).drop p).take n = ser c := by
    cases b with
    | false => obtain ⟨v, hv⟩ := exists_lit_of_flag _ (by simpa [hn] using hlen) hhead; exact ⟨_, hv⟩
    | true => obtain ⟨s, m, hsm⟩ := exists_dlt_of_flag _ (by simpa [hn] using hlen) hhead; exact ⟨_, hsm⟩
  obtain ⟨c, hc⟩ := hcode
  have hser : (ser c).length = n := by rw [← hc, hlen]
  exact ⟨c, by rw [parse_of_slice_eq buf p c (by rw [hser, hc]) (by omega), hser], hc, hser⟩

/-- The flag is beyond the buffer, or the code it begins does not fit (R47, R74). -/
def codeMissing (buf : List Byte) (p : Nat) : Prop :=
  8 * buf.length ≤ p ∨ (bitAt buf p = some false ∧ 8 * buf.length < p + 9) ∨
    (bitAt buf p = some true ∧ 8 * buf.length < p + 5)

/-- R74: PARSE fails when a READ of it fails. -/
theorem parse_of_codeMissing (buf : List Byte) (p : Nat) (h : codeMissing buf p) : parse buf p = none := by
  rcases h with h | ⟨hflag, h⟩ | ⟨hflag, h⟩
  · simp only [parse, readBits_one, (bitAt_eq_none buf p).mpr h, Option.map_none]
  · have hvalue : readBits buf (p + 1) 8 = none := (readBits_eq_none _ _ _).mpr (by omega)
    simp [parse, readBits_one buf p, hflag, hvalue]
  · have hmag : readBits buf (p + 2) 3 = none := (readBits_eq_none _ _ _).mpr (by omega)
    simp only [parse, readBits_one buf p, hflag, hmag]
    cases readBits buf (p + 1) 1 <;> rfl

/-- All PARSE can do (R74): a bit is missing, or it reads the code that stands at p. -/
theorem parse_cases (buf : List Byte) (p : Nat) :
    (codeMissing buf p ∧ parse buf p = none) ∨
      ∃ c, parse buf p = some (c, (ser c).length) ∧ p + (ser c).length ≤ 8 * buf.length ∧
        ((unpack buf).drop p).take (ser c).length = ser c ∧
        ((bitAt buf p = some false ∧ (ser c).length = 9) ∨ (bitAt buf p = some true ∧ (ser c).length = 5)) := by
  by_cases hmiss : codeMissing buf p
  · exact .inl ⟨hmiss, parse_of_codeMissing buf p hmiss⟩
  · right
    simp only [codeMissing, not_or, not_and, Nat.not_lt] at hmiss
    obtain ⟨hp, hlit, hdlt⟩ := hmiss
    cases hflag : bitAt buf p with
    | none => exact absurd ((bitAt_eq_none buf p).mp hflag) hp
    | some b =>
      have hfits : p + (if b then 5 else 9) ≤ 8 * buf.length := by
        cases b with
        | false => exact hlit hflag
        | true => exact hdlt hflag
      obtain ⟨c, hparse, hslice, hlen⟩ := parse_of_flag buf p _ b hflag rfl hfits
      refine ⟨c, by rw [hparse, hlen], by rwa [hlen], by rwa [hlen], ?_⟩
      cases b with
      | false => exact .inl ⟨rfl, hlen⟩
      | true => exact .inr ⟨rfl, hlen⟩

/-- Settles O24: of PARSE's cases, the one that answers. -/
theorem parsedCodeStandsInTheBuffer : Obligations.ParsedCodeStandsInTheBuffer := by
  intro buf p c n hparse
  rcases parse_cases buf p with ⟨_, hnone⟩ | ⟨c', hsome, hin, hslice, hflag⟩
  · cases hnone.symm.trans hparse
  · cases hsome.symm.trans hparse
    exact ⟨rfl, hin, hslice, hflag⟩

/-- Settles O25: PARSE fails in the case of a missing bit and answers a code in the other. -/
theorem parseFailsOnlyWhenTruncated : Obligations.ParseFailsOnlyWhenTruncated := by
  intro buf p
  refine ⟨fun hnone => ?_, parse_of_codeMissing buf p⟩
  rcases parse_cases buf p with ⟨hmiss, _⟩ | ⟨c, hsome, _⟩
  · exact hmiss
  · cases hnone.symm.trans hsome

end Sys2Proof
end

section
/-! PROOFS. The decoder against the encoder, and what the decoder and the request port refuse: 30_encoding.md sections
1, 3 and 5, 60_exceptions.md section 10 (R54, R67, R103). -/

namespace Sys2Proof

theorem codeOfBits_ser (c : Code) : codeOfBits (ser c) = some c := by
  cases c <;> simp [codeOfBits, ser, uint_bitsN]

/-- What is read as a code has the form of R41 or of R42. -/
theorem exists_code_of_codeOfBits (l : List Bit) (c : Code) (h : codeOfBits l = some c) : ∃ c', l = ser c' := by
  match l with
  | [] | [true] => cases h
  | false :: vs =>
    by_cases hvs : vs.length = 8
    · obtain ⟨v, hv⟩ := exists_lit_of_flag (false :: vs) (by simp [hvs]) rfl
      exact ⟨_, hv⟩
    · simp [codeOfBits, hvs] at h
  | true :: s :: ms =>
    by_cases hms : ms.length = 3
    · obtain ⟨s', m, hm⟩ := exists_dlt_of_flag (true :: s :: ms) (by simp [hms]) rfl
      exact ⟨_, hm⟩
    · simp [codeOfBits, hms] at h

/-- DECODE_SAMPLE's operand is read as a code exactly when it is the spelling of one (R41, R42, R103). -/
theorem codeOfBits_eq_some (l : List Bit) (c : Code) : codeOfBits l = some c ↔ l = ser c := by
  constructor
  · intro h
    obtain ⟨c', rfl⟩ := exists_code_of_codeOfBits l c h
    cases (codeOfBits_ser c').symm.trans h
    rfl
  · rintro rfl
    exact codeOfBits_ser c

theorem codeOfBits_eq_none (l : List Bit) (h : ∀ c, l ≠ ser c) : codeOfBits l = none :=
  Option.eq_none_iff_forall_ne_some.mpr fun c hc => h c ((codeOfBits_eq_some l c).mp hc)

/-- A spelled code, padded to bytes, decodes to its instruction (R41, R42, R52, R74). -/
theorem decode_packBits_ser (c : Code) : decode (.codeAt (packBits (ser c)) 0) = .ok c.instr := by
  have hparse := parse_of_unpack_eq (packBits (ser c)) [] _ c (unpack_packBits (ser c))
  simp only [List.length_nil] at hparse
  simp only [decode, hparse]

theorem decode_packBits_headerBits (w h : Half) : decode (.headerAt (packBits (headerBits w h))) = .ok (.hdr w h) := by
  have hread := decodeHeader_of_unpack_eq _ w h _ (unpack_packBits (headerBits w h))
  simp only [decode, hread]

/-- Settles O16: an operation's operands stand in the request, a wire format's fields in the bits of its spelling. -/
theorem decodeInvertsEncode : Obligations.DecodeInvertsEncode := by
  intro i hwf
  cases i with
  | hdr w h => exact decode_packBits_headerBits w h
  | lit v => exact decode_packBits_ser (.lit v)
  | dlt s m => exact decode_packBits_ser (.dlt s m)
  | append bits => rfl
  | finalize => rfl
  | read buf p n =>
    have hn : readLengthOk n = true := hwf
    simp [encode, decode, decodeRequest, Request.ofCode, hn]
  | chReset => rfl
  | encodeSample v =>
    have hv : v.toNat < 256 := v.isLt
    simp [encode, decode, decodeRequest, Request.ofCode, hv]
  | decodeSample c =>
    simp [encode, decode, decodeRequest, Request.ofCode, codeOfBits_ser]
  | encode w h pixels => rfl
  | decode buf => rfl

/-- The decoder answers a READ only with a length READ takes (R67). -/
theorem decodeRequest_wellFormed (q : Request) (i : Instr) (h : decodeRequest q = .ok i) : i.wellFormed = true := by
  unfold decodeRequest at h
  split at h
  case h_3 =>
    split at h
    case isTrue hlen =>
      split at h
      · cases h
      · cases h; exact hlen
    case isFalse => cases h
  case h_5 => split at h <;> cases h; rfl
  case h_6 => split at h <;> cases h; rfl
  case h_8 => split at h <;> cases h; rfl
  all_goals cases h
  all_goals rfl

/-- Settles O17: by what the decoder is given; a wire format has no bound to meet. -/
theorem decodedInstructionIsWellFormed : Obligations.DecodedInstructionIsWellFormed := by
  intro e i h
  cases e with
  | request q => exact decodeRequest_wellFormed q i h
  | headerAt buf =>
    cases hread : decodeHeader buf <;> simp only [decode, hread] at h <;> cases h
    rfl
  | codeAt buf p =>
    cases hread : parse buf p with
    | none => simp only [decode, hread] at h; cases h
    | some r =>
      obtain ⟨c, n⟩ := r
      simp only [decode, hread] at h
      cases h
      cases c <;> rfl

/-- Settles O18: the six words, evaluated. -/
theorem writtenWordsDecode : Obligations.WrittenWordsDecode :=
  ⟨rfl, rfl, rfl, rfl, rfl, rfl⟩

/-- Settles O22: the sixteen payloads of a delta code, one by one. -/
theorem deltaFieldsAreTwosComplement : Obligations.DeltaFieldsAreTwosComplement := by
  unfold Obligations.DeltaFieldsAreTwosComplement
  decide

end Sys2Proof

namespace Sys2Proof.Machine

/-- R8: an idle step with a request that decodes. -/
theorem step_of_decodeRequest_ok {s : State} {q : Request} {rest : List Request} {i : Instr} (hrun : s.run = none)
    (hreq : s.requests = q :: rest) (hq : decodeRequest q = .ok i) : step s = exec i { s with requests := rest } := by
  have hdec : decode (.request q) = .ok i := hq
  simp only [step, fetchNext, fetchRequest, hrun, hreq, hdec]

/-- R9, R103: an idle step with a request that does not. -/
theorem step_of_decodeRequest_error {s : State} {q : Request} {rest : List Request} {e : DecodeError}
    (hrun : s.run = none) (hreq : s.requests = q :: rest) (hq : decodeRequest q = .error e) :
    step s = .refused (.badRequest e) := by
  have hdec : decode (.request q) = .error e := hq
  simp only [step, fetchNext, fetchRequest, hrun, hreq, hdec]

/-- Settles O4: the request is taken off the port and run. -/
theorem stepRunsTheRequest : Obligations.StepRunsTheRequest := by
  intro s q rest i hrun hreq hq
  exact step_of_decodeRequest_ok hrun hreq hq

/-- Settles O7: an empty port gives the fetch nothing. -/
theorem stepWithoutARequestIsRefused : Obligations.StepWithoutARequestIsRefused := by
  intro s hrun hreq
  simp only [step, fetchNext, fetchRequest, hrun, hreq]

/-- R54: the eight codes that select nothing. -/
theorem decodeRequest_unassigned (q : Request)
    (h : q.code ∈ [0b0010#4, 0b0011#4, 0b0101#4, 0b0110#4, 0b0111#4, 0b1011#4, 0b1110#4, 0b1111#4]) :
    decodeRequest q = .error (.unassignedCode q.code) := by
  simp only [List.mem_cons, List.not_mem_nil, or_false] at h
  rcases h with h | h | h | h | h | h | h | h <;> simp [decodeRequest, h]

/-- Settles O8: the decoder rejects the code, so the step refuses the request. -/
theorem unassignedCommandCodeIsRefused : Obligations.UnassignedCommandCodeIsRefused := by
  intro s q rest hrun hreq hcode
  exact step_of_decodeRequest_error hrun hreq (decodeRequest_unassigned q hcode)

/-- Settles O9: each defect is what the decoder rejects by its name. -/
theorem requestOutsideItsTypesIsRefused : Obligations.RequestOutsideItsTypesIsRefused := by
  intro s q rest hrun hreq
  refine ⟨fun hcode hlen => ?_, fun hcode hlen hbuf => ?_, fun hcode hbuf => ?_, fun hcode hvalue => ?_,
    fun hcode hspell => ?_⟩ <;> apply step_of_decodeRequest_error hrun hreq
  · have hbad : ¬ readLengthOk q.length = true := by rw [readLengthOk_iff]; omega
    simp [decodeRequest, hcode, hbad]
  · have hok : readLengthOk q.length = true := (readLengthOk_iff _).mpr hlen
    simp [decodeRequest, hcode, hok, hbuf]
  · simp [decodeRequest, hcode, hbuf]
  · have hbig : ¬ q.value < 256 := by omega
    simp [decodeRequest, hcode, hbig]
  · simp [decodeRequest, hcode, codeOfBits_eq_none q.sample hspell]

end Sys2Proof.Machine
end

section
/-! PROOFS. The BitWriter's laws: 40_bitwriter.md rules R58, R59, R62 and R63, through the stream of rule R13. -/

namespace Sys2Proof.Machine

theorem wf_iff (w : BitWriter) : Memory.wf w = true ↔ w.part.length ≤ 7 := by
  simp [Memory.wf]

/-- APPEND keeps at most 7 bits pending (R13). -/
theorem append_part_le (w : BitWriter) (bits : List Bit) (h : w.part.length ≤ 7) : (w.append bits).part.length ≤ 7 :=
  (wf_iff _).mp (append_wf w bits ((wf_iff w).mpr h))

/-- With at most 7 bits pending, the position tells how many bytes are out and how many bits pend (R13, R62 (b)). -/
theorem lengths_of_pos (w : BitWriter) (h : w.part.length ≤ 7) :
    w.out.length = w.pos / 8 ∧ w.part.length = w.pos % 8 := by
  simp only [BitWriter.pos, Config.byteBits]
  omega

/-- With at most 7 bits pending, the stream tells what is out and what pends (R13, R62 (b)). -/
theorem parts_of_stream (w : BitWriter) (h : w.part.length ≤ 7) :
    unpack w.out = w.stream.take (8 * (w.pos / 8)) ∧ w.part = w.stream.drop (8 * (w.pos / 8)) := by
  rw [← (lengths_of_pos w h).1, ← unpack_length, BitWriter.stream, List.take_left, List.drop_left]
  exact ⟨rfl, rfl⟩

/-- R59, R62 (c): FINALIZE returns the stream, padded with zeros to a byte boundary. -/
theorem unpack_finalize_out (w : BitWriter) (h : w.part.length ≤ 7) :
    unpack w.finalize.out = w.stream ++ zeros (padCount w.part.length) := by
  rcases finalize_cases w with ⟨hpart, hfin⟩ | ⟨hpart, hfin⟩
  · simp [hfin, BitWriter.stream, hpart, padCount, zeros]
  · have hpos : 0 < w.part.length := List.length_pos_iff.mpr hpart
    have hpad : padCount w.part.length = 8 - w.part.length := by simp only [padCount]; omega
    rw [hfin, unpack_append, unpack_acc w h, hpad, BitWriter.stream, List.append_assoc]
    rfl

/-- Settles O33: the stream grows by the bits, the position by their number. -/
theorem appendAddsBitsInOrder : Obligations.AppendAddsBitsInOrder := by
  intro bits s hpart
  exact ⟨s.bw.append bits, exec_append bits s, append_stream s.bw bits, append_part_le s.bw bits hpart,
    append_out_prefix s.bw bits, append_pos s.bw bits⟩

/-- Settles O34: by whether a bit pends. -/
theorem finalizePadsAndReturnsTheBuffer : Obligations.FinalizePadsAndReturnsTheBuffer := by
  intro s hpart
  refine ⟨s.bw.finalize, exec_finalize s, finalize_part s.bw, fun hnone => ?_, fun hsome => ?_⟩
  · rw [finalize_of_part_eq_nil s.bw hnone]
  · rcases finalize_cases s.bw with ⟨hnone, _⟩ | ⟨_, hfin⟩
    · exact absurd hnone hsome
    · exact ⟨s.bw.acc, by rw [hfin], unpack_acc s.bw hpart⟩

theorem execList_pair_of_next {i j : Instr} {s t u : State} (hi : exec i s = .next t) (hj : exec j t = .next u) :
    execList [i, j] s = .next u := by
  rw [execList_cons_of_next [j] hi, execList_cons_of_next [] hj, execList_nil]

/-- R62 (b) to (d): what APPEND of a stream to an empty writer leaves, and what FINALIZE then returns. -/
theorem empty_append_laws (stream : List Bit) :
    let w := BitWriter.empty.append stream
    w.out.length = stream.length / 8 ∧ w.part.length = stream.length % 8 ∧
      unpack w.out = stream.take (8 * (stream.length / 8)) ∧ w.part = stream.drop (8 * (stream.length / 8)) ∧
      unpack w.finalize.out = stream ++ zeros (padCount stream.length) := by
  intro w
  have hpart : w.part.length ≤ 7 := append_part_le .empty stream (by decide)
  have hstream : w.stream = stream := append_stream .empty stream
  have hpos : w.pos = stream.length := by rw [← stream_length, hstream]
  obtain ⟨hout, hpend⟩ := lengths_of_pos w hpart
  obtain ⟨htake, hdrop⟩ := parts_of_stream w hpart
  rw [hpos] at hout hpend htake hdrop
  rw [hstream] at htake hdrop
  refine ⟨hout, hpend, htake, hdrop, ?_⟩
  rw [unpack_finalize_out w hpart, hstream, hpend]
  simp only [padCount, Nat.mod_mod]

/-- R62 (d): a read inside the bits a buffer begins with gives those bits. -/
theorem readBits_of_unpack_append (buf : List Byte) (stream after : List Bit) (h : unpack buf = stream ++ after)
    (p n : Nat) (hin : p + n ≤ stream.length) : readBits buf p n = some (uint ((stream.drop p).take n)) := by
  have hlen := unpack_length buf
  rw [h, List.length_append] at hlen
  refine (readBits_eq_some buf p n _).mpr ⟨by omega, ?_⟩
  rw [bitRead, h, List.drop_append_of_le_length (by omega),
    List.take_append_of_le_length (by rw [List.length_drop]; omega)]

/-- Settles O36: concatenation on any writer, then the laws on an empty one. -/
theorem appendObeysItsLaws : Obligations.AppendObeysItsLaws := by
  refine ⟨fun a b s => ⟨s.bw.append (a ++ b), ?_, exec_append (a ++ b) s⟩, fun stream s hpart hout => ?_⟩
  · rw [append_append]
    exact execList_pair_of_next (exec_append a s) (exec_append b _)
  · have hbw : s.bw = .empty := by cases hs : s.bw; simp_all [BitWriter.empty]
    obtain ⟨hlen, hpend, htake, hdrop, hflush⟩ := empty_append_laws stream
    refine ⟨_, _, exec_append stream s, exec_finalize _, ?_⟩
    simp only [respond_bw, hbw]
    refine ⟨hlen, hpend, htake, hdrop, ?_, hflush, readBits_of_unpack_append _ stream _ hflush⟩
    have hcount := congrArg List.length hflush
    rw [unpack_length, List.length_append, zeros_length, padCount] at hcount
    omega

/-- Settles O37: FINALIZE completes the stream to whole bytes, and from there the appended bits start at a byte. -/
theorem appendAfterFinalizeStartsANewByte : Obligations.AppendAfterFinalizeStartsANewByte := by
  intro bits s hpart
  have hflushed : s.bw.finalize.stream = s.bw.stream ++ zeros (padCount s.bw.part.length) := by
    rw [BitWriter.stream, finalize_part, List.append_nil, unpack_finalize_out s.bw hpart]
  refine ⟨_, execList_pair_of_next (exec_finalize s) (exec_append bits _), ?_⟩
  simp only [respond_bw]
  constructor
  · have hstream := append_stream s.bw.finalize bits
    rw [hflushed, padCount, Nat.mod_eq_of_lt (by omega : s.bw.part.length < 8)] at hstream
    exact hstream
  · rw [(lengths_of_pos _ (append_part_le s.bw.finalize bits (by simp))).2, append_pos, BitWriter.pos, finalize_part,
      List.length_nil, Nat.add_zero, Nat.mul_add_mod]

end Sys2Proof.Machine
end

section
/-! PROOFS. The register form of the BitWriter: 10_state.md rule R14. -/

namespace Sys2Proof.Machine

theorem byteOf_toNat (l : List Bit) (h : l.length = 8) : (byteOf l).toNat = uint l := by
  have hlt : uint l < 256 := by simpa [h] using uint_lt l
  rw [byteOf, BitVec.toNat_ofNat, Nat.mod_eq_of_lt hlt]

/-- Zeros on the low-order side shift a number to the left (section 6.2). -/
theorem uint_append_zeros (l : List Bit) (k : Nat) : uint (l ++ zeros k) = 2 ^ k * uint l := by
  have hzeros : uint (zeros k) = 0 := by
    induction k with
    | zero => rfl
    | succ k ih => rw [zeros, List.replicate_succ, uint_cons]; simpa [zeros, Config.padBit] using ih
  rw [uint_append, hzeros, zeros_length, Nat.add_zero, Nat.mul_comm]

theorem toNat_ofBool_shiftLeft (b : Bit) (k : Nat) (hk : k ≤ 7) :
    ((BitVec.ofBool b).zeroExtend 8 <<< k).toNat = b.toNat * 2 ^ k := by
  have hpow : 2 ^ k < 256 := Nat.pow_lt_pow_right (by decide) (by omega : k < 8)
  cases b <;> simp [BitVec.toNat_shiftLeft, Nat.shiftLeft_eq, Nat.mod_eq_of_lt hpow]

/-- R14: the next bit is or-ed into the left-justified byte, just below the bits that pend. -/
theorem byteOf_or_next_bit (l : List Bit) (b : Bit) (h : l.length ≤ 7) :
    byteOf (l ++ [b] ++ zeros (7 - l.length)) =
      byteOf (l ++ zeros (8 - l.length)) ||| ((BitVec.ofBool b).zeroExtend 8 <<< (7 - l.length)) := by
  obtain ⟨k, hk⟩ := Nat.exists_eq_add_of_le h
  have hk7 : 7 - l.length = k := by omega
  have hk8 : 8 - l.length = k + 1 := by omega
  have hb : b.toNat * 2 ^ k < 2 ^ (k + 1) := by
    have := Bool.toNat_le b
    rw [pow_succ]; nlinarith [Nat.two_pow_pos k]
  rw [hk7, hk8]
  apply BitVec.eq_of_toNat_eq
  rw [BitVec.toNat_or, byteOf_toNat _ (by simp; omega), byteOf_toNat _ (by simp; omega),
    toNat_ofBool_shiftLeft b k (by omega), uint_append_zeros, uint_append_zeros, ← Nat.two_pow_add_eq_or_of_lt hb,
    uint_append, uint_cons, uint_nil, List.length_singleton]
  simp only [List.length_nil]
  ring

theorem cnt_toNat (w : BitWriter) (h : w.part.length ≤ 7) : w.cnt.toNat = w.part.length := by
  rw [BitWriter.cnt, BitVec.toNat_ofNat, Nat.mod_eq_of_lt (by omega)]

/-- R14: a bit that completes no byte is or-ed into `BW.acc` and counted. -/
theorem appendBit_registers_of_lt (w : BitWriter) (b : Bit) (h : w.part.length < 7) :
    (w.appendBit b).out = w.out ∧ (w.appendBit b).cnt = w.cnt + 1#3 ∧
      (w.appendBit b).acc = w.acc ||| ((BitVec.ofBool b).zeroExtend 8 <<< (7 - w.cnt.toNat)) := by
  rcases appendBit_cases w b with ⟨h8, _⟩ | ⟨_, hpend⟩
  · omega
  · refine ⟨by rw [hpend], ?_, ?_⟩
    · rw [hpend, BitWriter.cnt, BitWriter.cnt, List.length_append, List.length_singleton, BitVec.ofNat_add]
    · have hor := byteOf_or_next_bit w.part b h.le
      have hwidth : 8 - (w.part ++ [b]).length = 7 - w.part.length := by simp
      rw [cnt_toNat w h.le, BitWriter.acc, BitWriter.acc, ← hor, hpend, Config.byteBits, hwidth]

/-- R14: the eighth bit is or-ed in, the byte emitted, and both registers cleared. -/
theorem appendBit_registers_of_eq (w : BitWriter) (b : Bit) (h : w.part.length = 7) :
    (w.appendBit b).out = w.out ++ [w.acc ||| (BitVec.ofBool b).zeroExtend 8] ∧ (w.appendBit b).cnt = 0#3 ∧
      (w.appendBit b).acc = 0#8 := by
  rcases appendBit_cases w b with ⟨_, hfull⟩ | ⟨h8, _⟩
  · have hor := byteOf_or_next_bit w.part b h.le
    simp only [h, Nat.sub_self, BitVec.shiftLeft_zero, zeros, List.replicate_zero, List.append_nil] at hor
    rw [hfull, hor]
    refine ⟨?_, rfl, rfl⟩
    simp only [BitWriter.acc, Config.byteBits, h, zeros]
  · omega

/-- Settles O38: the two cases of a bit on the registers, and FINALIZE with a bit pending. -/
theorem registerFormOfTheWriter : Obligations.RegisterFormOfTheWriter := by
  refine ⟨fun b s h => ⟨_, exec_append [b] s, appendBit_registers_of_lt s.bw b h⟩,
    fun b s h => ⟨_, exec_append [b] s, appendBit_registers_of_eq s.bw b h⟩, fun s hlo _ => ?_⟩
  rcases finalize_cases s.bw with ⟨hnone, _⟩ | ⟨_, hfin⟩
  · rw [hnone] at hlo
    cases hlo
  · rw [exec_finalize, hfin]
    rfl

end Sys2Proof.Machine
end

section
/-! PROOFS. The DeltaChannelCodec's operations and the round trip of a channel: 42_delta_channel_codec.md rules R70 to
R72, R75, R76. -/

namespace Sys2Proof.Machine

theorem exec_chReset (s : State) : exec .chReset s = .next ({ s with pred := 0#8 }.respond .ok) := rfl

theorem exec_encodeSample (x : Byte) (s : State) :
    exec (.encodeSample x) s = .next ({ s with pred := x }.respond (.code (encodeValue s.pred x))) := rfl

theorem exec_decodeSample_of_some {code : Code} {s : State} {v : Byte} (h : decodeValue s.pred code = some v) :
    exec (.decodeSample code) s = .next ({ s with pred := v }.respond (.sample v)) := by
  simp only [exec, execDecodeSample, h]

theorem exec_decodeSample_of_none {code : Code} {s : State} (h : decodeValue s.pred code = none) :
    exec (.decodeSample code) s = .next (s.raise .deltaOutOfRange) := by
  simp only [exec, execDecodeSample, h]

/-- R71: a value whose difference leaves -8..7 takes the literal code. -/
theorem encodeValue_of_outside (pred x : Byte) (h : sampleDelta pred x < -8 ∨ 7 < sampleDelta pred x) :
    encodeValue pred x = .lit x := by
  rcases encodeValue_cases pred x with ⟨_, hlit⟩ | ⟨hlo, hhi, _⟩
  · exact hlit
  · omega

/-- R71: a value whose difference is in -8..7 takes the delta code. -/
theorem encodeValue_of_inside (pred x : Byte) (hlo : -8 ≤ sampleDelta pred x) (hhi : sampleDelta pred x ≤ 7) :
    encodeValue pred x = .dlt (deltaSign (sampleDelta pred x)) (deltaMagnitude (sampleDelta pred x)) := by
  rcases encodeValue_cases pred x with ⟨hout, _⟩ | ⟨_, _, hdlt⟩
  · omega
  · exact hdlt

/-- Against predictor 0 the difference is the value (R70, R71). -/
theorem sampleDelta_zero (v : Byte) : sampleDelta 0#8 v = v.toNat := by
  simp [sampleDelta]

/-- Settles O39: CH_RESET's effect, the first code against 0, and where the sequencer resets. -/
theorem chResetZeroesThePredictor : Obligations.ChResetZeroesThePredictor := by
  refine ⟨exec_chReset, fun v => ⟨fun hv => ⟨_, _, encodeValue_of_inside 0#8 v ?_ ?_⟩, fun hv =>
    encodeValue_of_outside 0#8 v ?_⟩, fun f => ⟨fun h => ?_, fun h => ?_⟩⟩
  · rw [sampleDelta_zero]; omega
  · rw [sampleDelta_zero]; omega
  · rw [sampleDelta_zero]; omega
  · rw [openChannel_eq, if_pos h]
  · rw [openChannel_eq, if_neg h]

/-- Settles O40: by whether the difference is in the delta range. -/
theorem encodeSampleChoosesTheCode : Obligations.EncodeSampleChoosesTheCode := by
  intro x s
  exact ⟨_, exec_encodeSample x s, encodeValue_of_outside s.pred x, fun hlo hhi =>
    ⟨_, encodeValue_of_inside s.pred x hlo hhi, deltaMagnitude_toNat _⟩⟩

/-- Settles O41: a literal is its value; a delta code's value is the sum. -/
theorem decodeSampleReconstructsTheValue : Obligations.DecodeSampleReconstructsTheValue := by
  refine ⟨fun v s => exec_decodeSample_of_some (decodeValue_lit s.pred v), fun sg m v s hsum => ?_⟩
  exact exec_decodeSample_of_some ((decodeValue_dlt s.pred v sg m).mpr hsum)

/-- Settles O42: such a code has no value, so DECODE_SAMPLE raises. -/
theorem decodeSampleOutOfRangeRaises : Obligations.DecodeSampleOutOfRangeRaises := by
  intro sg m s hout
  exact exec_decodeSample_of_none ((decodeValue_dlt_none s.pred sg m).mpr hout)

/-- R75: against the same predictor a value's code decodes to the value. -/
theorem decodeValue_encodeValue (pred x : Byte) : decodeValue pred (encodeValue pred x) = some x := by
  rcases encodeValue_cases pred x with ⟨_, hlit⟩ | ⟨hlo, hhi, hdlt⟩
  · rw [hlit, decodeValue_lit]
  · rw [hdlt, decodeValue_dlt, codeDelta_deltaFields _ hlo hhi, sampleDelta]
    omega

@[simp] theorem channelCodes_length (pred : Byte) (xs : List Byte) : (channelCodes pred xs).length = xs.length := by
  induction xs generalizing pred with
  | nil => rfl
  | cons x xs ih => simp [channelCodes, ih]

/-- R71: ENCODE_SAMPLE of one value after the other answers the channel's codes; the predictor ends at the last
value. -/
theorem execList_encodeSample (xs : List Byte) (s : State) :
    execList (xs.map .encodeSample) s = .next { s with
      pred := xs.getLastD s.pred,
      responses := ((channelCodes s.pred xs).map Response.code).reverse ++ s.responses } := by
  induction xs generalizing s with
  | nil => rfl
  | cons x xs ih =>
    rw [List.map_cons, execList_cons_of_next _ (exec_encodeSample x s), ih]
    simp only [channelCodes, State.respond, List.getLastD_cons, List.map_cons, List.reverse_cons, List.append_assoc,
      List.singleton_append]

/-- R72, R75: DECODE_SAMPLE of a channel's codes, from the predictor they were made against, answers the values. -/
theorem execList_decodeSample (xs : List Byte) (s : State) :
    execList ((channelCodes s.pred xs).map .decodeSample) s = .next { s with
      pred := xs.getLastD s.pred, responses := (xs.map Response.sample).reverse ++ s.responses } := by
  induction xs generalizing s with
  | nil => rfl
  | cons x xs ih =>
    have hfirst := exec_decodeSample_of_some (s := s) (decodeValue_encodeValue s.pred x)
    rw [channelCodes, List.map_cons, execList_cons_of_next _ hfirst]
    have hrest := ih ({ s with pred := x }.respond (.sample x))
    simp only [respond_pred] at hrest
    rw [hrest]
    simp only [State.respond, List.getLastD_cons, List.map_cons, List.reverse_cons, List.append_assoc,
      List.singleton_append]

/-- Settles O43: CH_RESET puts both sides at predictor 0, and from there each follows the values. -/
theorem channelRoundTrips : Obligations.ChannelRoundTrips := by
  intro xs e d
  refine ⟨channelCodes 0#8 xs, xs.getLastD 0#8, ?_, ?_, channelCodes_length _ _, rfl⟩
  · rw [execList_cons_of_next _ (exec_chReset e), execList_encodeSample]
    rfl
  · rw [execList_cons_of_next _ (exec_chReset d)]
    exact execList_decodeSample xs ({ d with pred := 0#8 }.respond .ok)

end Sys2Proof.Machine
end

section
/-! PROOFS. A step of a run in progress as one iteration of its sequencer: 43_frame_codec.md rules R80 to R84. -/

namespace Sys2Proof.Machine

/-- R80, R82, R84: what a run does next: its header, then an iteration of the sequencer. -/
def Fc.advance (f : Fc) (k : RunKind) : Progress :=
  if f.headerDone then f.tick k
  else
    match k with
    | .encode => .running f.emitHeader
    | .decode =>
      match decodeHeader f.buf with
      | none => .finished (.error .truncatedBuffer)
      | some (w, h) => .running (f.takeHeader w h)

@[simp] theorem advance_of_headerDone {f : Fc} (k : RunKind) (h : f.headerDone = true) : f.advance k = f.tick k := by
  simp [Fc.advance, h]

theorem advance_encode_header {f : Fc} (h : f.headerDone = false) : f.advance .encode = .running f.emitHeader := by
  simp [Fc.advance, h]

theorem advance_decode_header {f : Fc} {w ht : Half} (h : f.headerDone = false)
    (hread : decodeHeader f.buf = some (w, ht)) : f.advance .decode = .running (f.takeHeader w ht) := by
  simp [Fc.advance, h, hread]

theorem advance_decode_truncated {f : Fc} (h : f.headerDone = false) (hread : decodeHeader f.buf = none) :
    f.advance .decode = .finished (.error .truncatedBuffer) := by
  simp [Fc.advance, h, hread]

theorem tick_of_done {f : Fc} (k : RunKind) (h : f.ch = none) : f.tick k = .finished (f.result k) := by
  simp only [Fc.tick, h]

theorem tick_of_channel_complete {f : Fc} {c : Channel} (k : RunKind) (hch : f.ch = some c) (hidx : f.count ≤ f.idx) :
    f.tick k = .running (f.nextChannel c) := by
  simp only [Fc.tick, hch, if_neg (Nat.not_lt.mpr hidx)]

theorem tick_of_lt {f : Fc} {c : Channel} (k : RunKind) (hch : f.ch = some c) (hidx : f.idx < f.count) :
    f.tick k = f.sample c k := by
  simp only [Fc.tick, hch, if_pos hidx]

theorem sample_decode_of_some {f : Fc} {code : Code} {n : Nat} (c : Channel) (h : parse f.buf f.cur = some (code, n)) :
    f.sample c .decode = f.consume c code := by
  simp only [Fc.sample, h]

theorem sample_decode_of_none {f : Fc} (c : Channel) (h : parse f.buf f.cur = none) :
    f.sample c .decode = .finished (.error .truncatedBuffer) := by
  simp only [Fc.sample, h]

theorem sample_encode_of_some {f : Fc} {c : Channel} {x : Byte} (h : f.dueSample c = some x) :
    f.sample c .encode = .running (f.emit x) := by
  simp only [Fc.sample, h]

theorem sample_encode_of_none {f : Fc} {c : Channel} (h : f.dueSample c = none) :
    f.sample c .encode = .running f := by
  simp only [Fc.sample, h]

theorem dueSample_of_pixel {f : Fc} {px : Pixel} (c : Channel) (h : f.pixels[f.idx]? = some px) :
    f.dueSample c = some (component px c) := by
  simp only [Fc.dueSample, h, Option.map_some]

/-- A consumed code whose value is a byte (R72, R82). -/
theorem consume_of_some {f : Fc} {c : Channel} {code : Code} {v : Byte}
    (h : decodeValue f.openChannel.pred code = some v) : f.consume c code = .running { f with
      pred := v, chan := f.chan.push c v, cur := f.cur + codeLength code, idx := f.idx + 1 } := by
  simp only [Fc.consume, h]

theorem consume_of_none {f : Fc} {c : Channel} {code : Code} (h : decodeValue f.openChannel.pred code = none) :
    f.consume c code = .finished (.error .deltaOutOfRange) := by
  simp only [Fc.consume, h]

/-- R82: a code met by a DECODE run with a sample due. -/
theorem exec_code_decode {s : State} {c : Channel} (code : Code) (hrun : s.run = some .decode)
    (hdue : s.fc.dueChannel = some c) : exec code.instr s = .next (s.progress (s.fc.consume c code)) := by
  simp only [exec_code, runCode, hrun, hdue]

/-- R80: the code an ENCODE run with a sample due produces. -/
theorem exec_code_encode {s : State} {c : Channel} {x : Byte} (hrun : s.run = some .encode)
    (hdue : s.fc.dueChannel = some c) (hx : s.fc.dueSample c = some x) :
    exec (encodeValue s.fc.openChannel.pred x).instr s = .next { s with fc := s.fc.emit x } := by
  simp only [exec_code, runCode, hrun, hdue, hx, if_true]

theorem exec_hdr_decode {s : State} (w h : Half) (hrun : s.run = some .decode) (hhead : s.fc.headerDone = false) :
    exec (.hdr w h) s = .next { s with fc := s.fc.takeHeader w h } :=
  (execHdr_next w h s _).mpr ⟨hhead, .inl ⟨hrun, rfl⟩⟩

theorem exec_hdr_encode {s : State} (hrun : s.run = some .encode) (hhead : s.fc.headerDone = false) :
    exec (.hdr s.fc.width s.fc.height) s = .next { s with fc := s.fc.emitHeader } :=
  (execHdr_next _ _ s _).mpr ⟨hhead, .inr ⟨hrun, rfl, rfl, rfl⟩⟩

theorem step_of_instr {s u : State} {i : Instr} (h : fetchNext s = .instr i u) : step s = exec i u := by
  simp only [step, h]

theorem step_of_internal {s u : State} (h : fetchNext s = .internal u) : step s = .next u := by
  simp only [step, h]

/-- Every step of a DECODE run is what the run does next (R82, R84). -/
theorem step_of_decode_run (s : State) (hrun : s.run = some .decode) :
    step s = .next (s.progress (s.fc.advance .decode)) := by
  rcases fetchNext_decode s hrun with ⟨w, h, hhead, hread, hfetch⟩ | ⟨c, code, n, hdue, hparse, hfetch⟩ |
    ⟨htrunc, hfetch⟩ | ⟨hhead, _, hfetch⟩
  · rw [step_of_instr hfetch, exec_hdr_decode w h hrun hhead, advance_decode_header hhead hread, progress_running]
  · obtain ⟨hch, hhead, hidx⟩ := (dueChannel_eq_some _ _).mp hdue
    rw [step_of_instr hfetch, exec_code_decode code hrun hdue, advance_of_headerDone _ hhead, tick_of_lt _ hch hidx,
      sample_decode_of_some c hparse]
  · rw [step_of_internal hfetch]
    rcases htrunc with ⟨hhead, hread⟩ | ⟨hdue, hparse⟩
    · rw [advance_decode_truncated hhead hread, progress_finished]
    · obtain ⟨c, hc⟩ := Option.isSome_iff_exists.mp hdue
      obtain ⟨hch, hhead, hidx⟩ := (dueChannel_eq_some _ _).mp hc
      rw [advance_of_headerDone _ hhead, tick_of_lt _ hch hidx, sample_decode_of_none c hparse, progress_finished]
  · rw [step_of_internal hfetch, advance_of_headerDone _ hhead]

/-- Every step of an ENCODE run is what the run does next (R80, R84). -/
theorem step_of_encode_run (s : State) (hrun : s.run = some .encode) :
    step s = .next (s.progress (s.fc.advance .encode)) := by
  rcases fetchNext_encode s hrun with ⟨hhead, hfetch⟩ | ⟨c, x, hdue, hx, hfetch⟩ | ⟨hhead, _, hfetch⟩
  · rw [step_of_instr hfetch, exec_hdr_encode hrun hhead, advance_encode_header hhead, progress_running]
  · obtain ⟨hch, hhead, hidx⟩ := (dueChannel_eq_some _ _).mp hdue
    rw [step_of_instr hfetch, exec_code_encode hrun hdue hx, advance_of_headerDone _ hhead, tick_of_lt _ hch hidx,
      sample_encode_of_some hx, progress_running]
  · rw [step_of_internal hfetch, advance_of_headerDone _ hhead]

/-- R84: every step of a run is what the run does next. -/
theorem step_of_run {s : State} {k : RunKind} (hrun : s.run = some k) :
    step s = .next (s.progress (s.fc.advance k)) := by
  cases k with
  | encode => exact step_of_encode_run s hrun
  | decode => exact step_of_decode_run s hrun

/-- Settles O5: the four items a run's fetch finds. -/
theorem stepRunsTheItemOfTheRun : Obligations.StepRunsTheItemOfTheRun := by
  refine ⟨fun s i hrun hhead hdec => ?_, fun s c i hrun hhead hch hidx hdec => ?_, fun s hrun hhead => ?_,
    fun s c px hrun hhead hch hidx hpx => ?_⟩
  · apply step_of_instr
    simp only [fetchNext, fetchDecodeRun, hrun, hhead, Bool.false_eq_true, if_false, hdec]
  · have hdue := (dueChannel_eq_some s.fc c).mpr ⟨hch, hhead, hidx⟩
    apply step_of_instr
    simp only [fetchNext, fetchDecodeRun, hrun, hhead, if_true, hdue, hdec]
  · apply step_of_instr
    simp only [fetchNext, fetchEncodeRun, hrun, hhead, Bool.false_eq_true, if_false]
  · have hdue := (dueChannel_eq_some s.fc c).mpr ⟨hch, hhead, hidx⟩
    rw [← openChannel_pred]
    apply step_of_instr
    simp only [fetchNext, fetchEncodeRun, hrun, hhead, if_true, hdue, dueSample_of_pixel c hpx]

/-- A header does not fit in fewer than 4 bytes (R45). -/
theorem decodeHeader_of_length_lt (buf : List Byte) (h : buf.length < 4) : decodeHeader buf = none := by
  have hheight : readBits buf 16 16 = none := (readBits_eq_none _ _ _).mpr (by omega)
  simp only [decodeHeader, Config.dimBits, hheight]
  cases readBits buf 0 16 <;> rfl

/-- Settles O6: what the run does next is to end with TruncatedBuffer. -/
theorem stepEndsATruncatedDecode : Obligations.StepEndsATruncatedDecode := by
  refine ⟨fun s hrun hhead hlen => ?_, fun s c hrun hhead hch hidx hparse => ?_⟩
  · rw [step_of_run hrun, advance_decode_truncated hhead (decodeHeader_of_length_lt _ hlen)]
    rfl
  · rw [step_of_run hrun, advance_of_headerDone _ hhead, tick_of_lt _ hch hidx, sample_decode_of_none c hparse]
    rfl

/-- Settles O11: a step of a run changes its registers alone, or ends it. -/
theorem runLeavesTheCallersUnits : Obligations.RunLeavesTheCallersUnits := by
  intro s t hrun hstep
  obtain ⟨k, hk⟩ := Option.ne_none_iff_exists'.mp hrun
  rw [step_of_run hk] at hstep
  cases hstep
  refine ⟨progress_bw _ _, progress_pred _ _, progress_requests _ _, ?_⟩
  cases s.fc.advance k with
  | running f => exact .inl ⟨rfl, rfl⟩
  | finished r => exact .inr ⟨rfl, rfl, r, rfl⟩

/-- Settles O59: of an iteration's cases, the change of channel and the end. -/
theorem sequencerMovesThroughTheChannels : Obligations.SequencerMovesThroughTheChannels := by
  intro s k hrun hhead
  refine ⟨fun c hch hidx => ?_, fun hch => ?_⟩
  · rw [step_of_run hrun, advance_of_headerDone _ hhead, tick_of_channel_complete _ hch hidx, progress_running,
      nextChannel_eq]
    cases c <;> rfl
  · rw [step_of_run hrun, advance_of_headerDone _ hhead, tick_of_done _ hch]
    cases k <;> rfl

end Sys2Proof.Machine
end

section
/-! PROOFS. The wire formats as the items of a run: 43_frame_codec.md rules R80, R82, R83 and 00_scope.md rules R2 and
R9. -/

namespace Sys2Proof.Machine

/-- Settles O54: HDR is step 1 to the setting of the cursor. -/
theorem headerOpensADecode : Obligations.HeaderOpensADecode := by
  intro w h s hrun hhead
  exact exec_hdr_decode w h hrun hhead

/-- R45, R56, R80 step 1: the run's writer takes the 32 header bits. -/
theorem emitHeader_eq (f : Fc) :
    f.emitHeader =
      { f with headerDone := true, ch := some .red, idx := 0, bw := f.bw.append (headerBits f.width f.height) } := by
  rw [headerBits, append_append]
  rfl

/-- Settles O55: HDR's bits are one APPEND of the header to the run's writer. -/
theorem headerOpensAnEncode : Obligations.HeaderOpensAnEncode := by
  intro s hrun hhead hpart
  refine ⟨s.fc.bw.append (headerBits s.fc.width s.fc.height), ?_, append_stream _ _, append_part_le _ _ hpart⟩
  rw [exec_hdr_encode hrun hhead, emitHeader_eq]

/-- R82 for a code with a byte value: the channel record is the old one with the value pushed. -/
theorem exec_code_decode_of_some {s : State} {c : Channel} {code : Code} {v : Byte} (hrun : s.run = some .decode)
    (hdue : s.fc.dueChannel = some c) (hv : decodeValue (if s.fc.idx = 0 then 0#8 else s.fc.pred) code = some v) :
    ∃ cs : ChannelSeqs,
      exec code.instr s = .next { s with
        fc := { s.fc with pred := v, chan := cs, cur := s.fc.cur + codeLength code, idx := s.fc.idx + 1 } } ∧
      cs.get c = s.fc.chan.get c ++ [v] ∧ ∀ c', c' ≠ c → cs.get c' = s.fc.chan.get c' := by
  refine ⟨s.fc.chan.push c v, ?_, push_get_same _ _ _, fun c' hc' => push_get_other _ _ _ _ hc'⟩
  rw [exec_code_decode code hrun hdue, consume_of_some (by rwa [openChannel_pred]), progress_running]

/-- Settles O56: a literal's value is itself, a delta code's the sum. -/
theorem codeIsOneSampleOfADecode : Obligations.CodeIsOneSampleOfADecode := by
  intro s c hrun hhead hch hidx
  have hdue := (dueChannel_eq_some s.fc c).mpr ⟨hch, hhead, hidx⟩
  refine ⟨fun v => exec_code_decode_of_some hrun hdue (decodeValue_lit _ v), fun sg m v hsum => ?_⟩
  exact exec_code_decode_of_some (code := .dlt sg m) hrun hdue ((decodeValue_dlt _ v sg m).mpr hsum)

/-- Settles O57: such a code has no value, so consuming it ends the run. -/
theorem deltaOutOfRangeEndsADecode : Obligations.DeltaOutOfRangeEndsADecode := by
  intro s c sg m hrun hhead hch hidx hout
  have hdue := (dueChannel_eq_some s.fc c).mpr ⟨hch, hhead, hidx⟩
  have hnone := (decodeValue_dlt_none _ sg m).mpr hout
  rw [← openChannel_pred] at hnone
  have hexec := exec_code_decode (.dlt sg m) hrun hdue
  rw [consume_of_none hnone] at hexec
  exact hexec

/-- Settles O58: the code is the one the run produces, and its spelling one APPEND to the run's writer. -/
theorem codeIsOneSampleOfAnEncode : Obligations.CodeIsOneSampleOfAnEncode := by
  rintro s c px _ hrun hhead hch hidx hpx hpart rfl
  have hdue := (dueChannel_eq_some s.fc c).mpr ⟨hch, hhead, hidx⟩
  rw [← openChannel_pred]
  exact ⟨_, exec_code_encode hrun hdue (dueSample_of_pixel c hpx), append_stream _ _, append_part_le _ _ hpart⟩

theorem exec_code_of_idle (code : Code) {s : State} (hrun : s.run = none) : exec code.instr s = .refused .noRun := by
  simp only [exec_code, runCode, hrun]

theorem exec_code_of_not_due (code : Code) {s : State} {k : RunKind} (hrun : s.run = some k)
    (hdue : s.fc.dueChannel = none) : exec code.instr s = .refused .notDue := by
  simp only [exec_code, runCode, hrun, hdue]

/-- R50, R71, R80: an ENCODE run produces no other code than that of the sample due. -/
theorem exec_code_of_not_produced {code : Code} {s : State} {c : Channel} (hrun : s.run = some .encode)
    (hdue : s.fc.dueChannel = some c)
    (hcode : ∀ x, s.fc.dueSample c = some x → encodeValue s.fc.openChannel.pred x ≠ code) :
    exec code.instr s = .refused .notProduced := by
  simp only [exec_code, runCode, hrun, hdue]
  cases hx : s.fc.dueSample c with
  | none => rfl
  | some x => exact if_neg (hcode x hx)

/-- Settles O60: by the place where the item stands. -/
theorem wireFormatOutsideARunIsRefused : Obligations.WireFormatOutsideARunIsRefused := by
  intro s
  refine ⟨fun hrun => ⟨fun w h => ?_, fun v => exec_code_of_idle (.lit v) hrun,
      fun sg m => exec_code_of_idle (.dlt sg m) hrun⟩, fun hrun hhead w h => ?_, fun hrun hnot => ?_,
    fun hrun hhead w h hother => ?_, fun c code hrun hhead hch hidx hother => ?_⟩
  · simp only [exec, execHdr, hrun]
  · obtain ⟨k, hk⟩ := Option.ne_none_iff_exists'.mp hrun
    simp only [exec, execHdr, hk, hhead, if_true]
  · obtain ⟨k, hk⟩ := Option.ne_none_iff_exists'.mp hrun
    have hdue : s.fc.dueChannel = none := (dueChannel_eq_none s.fc).mpr (by tauto)
    exact ⟨fun v => exec_code_of_not_due (.lit v) hk hdue, fun sg m => exec_code_of_not_due (.dlt sg m) hk hdue⟩
  · have hdiff : ¬ (s.fc.width = w ∧ s.fc.height = h) := by
      rintro ⟨rfl, rfl⟩
      simp at hother
    simp only [exec, execHdr, hrun, hhead, Bool.false_eq_true, if_false, if_neg hdiff]
  · refine exec_code_of_not_produced hrun ((dueChannel_eq_some s.fc c).mpr ⟨hch, hhead, hidx⟩) fun x hx => ?_
    obtain ⟨px, hpx, rfl⟩ := Option.map_eq_some_iff.mp hx
    rw [openChannel_pred]
    exact hother px hpx

end Sys2Proof.Machine
end

section
/-! PROOFS. The sequencer iterated, for the atomic operations and for a run walked step by step: 43_frame_codec.md rule
R84. -/

namespace Sys2Proof.Machine

/-- R84: `n` iterations of the sequencer, none of which ends the run, lead from `f` to `g`. -/
inductive Fc.Runs (k : RunKind) : Nat → Fc → Fc → Prop
  | refl (f : Fc) : Fc.Runs k 0 f f
  | step {n : Nat} {f g h : Fc} (htick : f.tick k = .running g) (hrest : Fc.Runs k n g h) : Fc.Runs k (n + 1) f h

/-- R84: from `f` the run ends with response `r`, after `n` iterations that do not end it. -/
def Fc.Ends (k : RunKind) (n : Nat) (f : Fc) (r : Response) : Prop :=
  ∃ g, Fc.Runs k n f g ∧ g.tick k = .finished r

/-- R84: from `f` the run ends with response `r` after at most `n` iterations and one more. -/
def Fc.EndsBy (k : RunKind) (n : Nat) (f : Fc) (r : Response) : Prop :=
  ∃ m ≤ n, Fc.Ends k m f r

theorem runs_trans {k : RunKind} {m n : Nat} {f g h : Fc} (hfg : Fc.Runs k m f g) (hgh : Fc.Runs k n g h) :
    Fc.Runs k (m + n) f h := by
  induction hfg with
  | refl => rwa [Nat.zero_add]
  | step htick _ ih => rw [Nat.succ_add]; exact .step htick (ih hgh)

theorem ends_of_runs {k : RunKind} {m n : Nat} {f g : Fc} {r : Response} (hfg : Fc.Runs k m f g)
    (hg : Fc.Ends k n g r) : Fc.Ends k (m + n) f r := by
  obtain ⟨h, hgh, hlast⟩ := hg
  exact ⟨h, runs_trans hfg hgh, hlast⟩

/-- A run that ends within its fuel is driven to its response (log 9). -/
theorem drive_of_ends {k : RunKind} {n fuel : Nat} {f : Fc} {r : Response} (h : Fc.Ends k n f r) (hfuel : n < fuel) :
    Fc.drive fuel f k = some r := by
  obtain ⟨g, hruns, hlast⟩ := h
  obtain ⟨m, rfl⟩ := Nat.exists_eq_add_of_lt hfuel
  induction hruns with
  | refl => exact drive_finished _ hlast
  | @step n f g h htick _ ih =>
    rw [show n + 1 + m + 1 = (n + m + 1) + 1 by omega, drive_running _ htick]
    exact ih hlast (by omega)

/-- What an iteration that does not end the run leaves (R84): the next channel, one sample more decoded or encoded, or,
where an image lacks the pixel (none does: R81), the registers as they were. -/
theorem tick_running_cases {f g : Fc} {k : RunKind} (h : f.tick k = .running g) :
    (∃ c, f.ch = some c ∧ f.count ≤ f.idx ∧ g = f.nextChannel c) ∨
      (k = .decode ∧ ∃ c code v, f.ch = some c ∧ f.idx < f.count ∧ g = { f with
        pred := v, chan := f.chan.push c v, cur := f.cur + codeLength code, idx := f.idx + 1 }) ∨
      (k = .encode ∧ ∃ c x, f.ch = some c ∧ f.idx < f.count ∧ g = f.emit x) ∨ g = f := by
  rcases tick_cases f k with ⟨_, htick⟩ | ⟨c, hch, hidx, htick⟩ | ⟨c, hch, hidx, htick⟩ <;> rw [htick] at h
  · cases h
  · cases h
    exact .inl ⟨c, hch, hidx, rfl⟩
  · cases k with
    | decode =>
      cases hparse : parse f.buf f.cur with
      | none => rw [sample_decode_of_none c hparse] at h; cases h
      | some p =>
        rw [sample_decode_of_some c (n := p.2) hparse] at h
        rcases consume_cases f c p.1 with ⟨_, hend⟩ | ⟨v, _, hgo⟩
        · rw [hend] at h; cases h
        · rw [hgo] at h; cases h
          exact .inr (.inl ⟨rfl, c, p.1, v, hch, hidx, rfl⟩)
    | encode =>
      cases hx : f.dueSample c with
      | none => rw [sample_encode_of_none hx] at h; cases h; exact .inr (.inr (.inr rfl))
      | some x => rw [sample_encode_of_some hx] at h; cases h; exact .inr (.inr (.inl ⟨rfl, c, x, hch, hidx, rfl⟩))

/-- An iteration keeps the model's mark that the header is done. -/
theorem tick_running_headerDone {f g : Fc} {k : RunKind} (h : f.tick k = .running g) :
    g.headerDone = f.headerDone := by
  rcases tick_running_cases h with ⟨c, _, _, rfl⟩ | ⟨_, c, code, v, _, _, rfl⟩ | ⟨_, c, x, _, _, rfl⟩ | rfl
  · rw [nextChannel_eq]
  · rfl
  · rfl
  · rfl

theorem core_run_succ {s t : State} (n : Nat) (h : step s = .next t) :
    Sys2Proof.core.run (n + 1) s = Sys2Proof.core.run n t := by
  have hstep : Sys2Proof.core.step s = .next t := h
  simp only [Host.Core.run, hstep]

/-- R84: a run walked step by step from past its header gives its response when it ends. -/
theorem core_run_of_ends {k : RunKind} {n : Nat} {f : Fc} {r : Response} (s : State) (h : Fc.Ends k n f r)
    (hrun : s.run = some k) (hhead : f.headerDone = true) :
    Sys2Proof.core.run (n + 1) { s with fc := f } = .next (s.endRun r) := by
  obtain ⟨g, hruns, hlast⟩ := h
  have hstep (f : Fc) (hf : f.headerDone = true) :
      step { s with fc := f } = .next ({ s with fc := f }.progress (f.tick k)) := by
    rw [step_of_run (s := { s with fc := f }) hrun, advance_of_headerDone k hf]
  induction hruns with
  | refl f => rw [core_run_succ 0 (hstep f hhead), hlast]; rfl
  | @step n f g h htick _ ih =>
    rw [core_run_succ (n + 1) (hstep f hhead), htick, progress_running]
    exact ih (by rw [tick_running_headerDone htick, hhead]) hlast

end Sys2Proof.Machine
end

section
/-! PROOFS. DECODE's sequencer against its loops: 43_frame_codec.md rules R82 to R84. -/

namespace Sys2Proof.Machine

theorem ser_length (c : Code) : (ser c).length = codeLength c := by
  cases c <;> simp [codeLength]

/-- PARSE answers the length of the code it answers (R47, R74). -/
theorem parse_some_length {buf : List Byte} {p n : Nat} {c : Code} (h : parse buf p = some (c, n)) :
    n = codeLength c := by
  rw [← ser_length]
  exact (parsedCodeStandsInTheBuffer buf p c n h).1

/-- R82, R83: the inner loop's first sample: it is missing, it leaves 0..255, or the rest follows from it. -/
theorem decodeSamples_succ_cases (buf : List Byte) (n cur : Nat) (pred : Byte) :
    (parse buf cur = none ∧ decodeSamples buf (n + 1) cur pred = .error .truncatedBuffer) ∨
      (∃ code, parse buf cur = some (code, codeLength code) ∧ decodeValue pred code = none ∧
        decodeSamples buf (n + 1) cur pred = .error .deltaOutOfRange) ∨
      ∃ code v, parse buf cur = some (code, codeLength code) ∧ decodeValue pred code = some v ∧
        decodeSamples buf (n + 1) cur pred =
          (decodeSamples buf n (cur + codeLength code) v).map fun r => (v :: r.1, r.2) := by
  cases hparse : parse buf cur with
  | none => exact .inl ⟨rfl, by simp only [decodeSamples, hparse]⟩
  | some q =>
    obtain ⟨code, nbits⟩ := q
    obtain rfl := parse_some_length hparse
    cases hv : decodeValue pred code with
    | none => exact .inr (.inl ⟨code, rfl, hv, by simp only [decodeSamples, hparse, hv]⟩)
    | some v =>
      refine .inr (.inr ⟨code, v, rfl, hv, ?_⟩)
      simp only [decodeSamples, hparse, hv]
      cases decodeSamples buf n (cur + codeLength code) v <;> rfl

/-- `FC.chan[c]` after the values of a channel, one after the other (R82). -/
def ChannelSeqs.pushAll (cs : ChannelSeqs) (c : Channel) (vs : List Byte) : ChannelSeqs :=
  vs.foldl (fun acc v => acc.push c v) cs

theorem pushAll_cons (cs : ChannelSeqs) (c : Channel) (v : Byte) (vs : List Byte) :
    cs.pushAll c (v :: vs) = (cs.push c v).pushAll c vs := rfl

theorem pushAll_eq (cs : ChannelSeqs) (c : Channel) (vs : List Byte) :
    cs.pushAll c vs =
      match c with
      | .red => { cs with red := cs.red ++ vs }
      | .green => { cs with green := cs.green ++ vs }
      | .blue => { cs with blue := cs.blue ++ vs } := by
  induction vs generalizing cs with
  | nil => cases c <;> simp [ChannelSeqs.pushAll]
  | cons v vs ih => rw [pushAll_cons, ih]; cases c <;> simp [ChannelSeqs.push]

/-- One iteration with a sample due whose code has a byte value (R82, R84). -/
theorem tick_decode_sample {f : Fc} {c : Channel} {code : Code} {v : Byte} (hch : f.ch = some c)
    (hidx : f.idx < f.count) (hparse : parse f.buf f.cur = some (code, codeLength code))
    (hv : decodeValue f.openChannel.pred code = some v) :
    f.tick .decode = .running { f with
      pred := v, chan := f.chan.push c v, cur := f.cur + codeLength code, idx := f.idx + 1 } := by
  rw [tick_of_lt .decode hch hidx, sample_decode_of_some c hparse, consume_of_some hv]

/-- R82, R84: the iterations of one channel follow the inner loop. -/
theorem runs_decode_channel (c : Channel) (n : Nat) (f : Fc) (vs : List Byte) (cur : Nat) (hch : f.ch = some c)
    (hidx : f.idx + n = f.count) (h : decodeSamples f.buf n f.cur f.openChannel.pred = .ok (vs, cur)) :
    ∃ p, Fc.Runs .decode (n + 1) f { f with
      ch := nextChannel c, idx := 0, cur := cur, pred := p, chan := f.chan.pushAll c vs } := by
  induction n generalizing f vs with
  | zero =>
    cases h
    have htick := tick_of_channel_complete .decode hch (by omega)
    rw [nextChannel_eq] at htick
    exact ⟨_, .step htick (.refl _)⟩
  | succ n ih =>
    rcases decodeSamples_succ_cases f.buf n f.cur f.openChannel.pred with ⟨_, herr⟩ | ⟨_, _, _, herr⟩ |
      ⟨code, v, hparse, hv, hrest⟩
    · cases herr.symm.trans h
    · cases herr.symm.trans h
    · rw [hrest] at h
      cases hloop : decodeSamples f.buf n (f.cur + codeLength code) v with
      | error k => rw [hloop] at h; cases h
      | ok r =>
        rw [hloop] at h
        cases h
        have htick := tick_decode_sample hch (by omega) hparse hv
        obtain ⟨p, hruns⟩ := ih { f with
          pred := v, chan := f.chan.push c v, cur := f.cur + codeLength code, idx := f.idx + 1 } r.1 hch
          (by simp only; omega) (by simpa [openChannel_pred] using hloop)
        exact ⟨p, .step htick hruns⟩

/-- R83, R84: where the inner loop fails, the run ends with its error, at the latest at the channel's last sample. -/
theorem ends_decode_channel (c : Channel) (n : Nat) (f : Fc) (k : ErrorKind) (hch : f.ch = some c)
    (hidx : f.idx + n = f.count) (h : decodeSamples f.buf n f.cur f.openChannel.pred = .error k) :
    Fc.EndsBy .decode n f (.error k) := by
  induction n generalizing f with
  | zero => cases h
  | succ n ih =>
    rcases decodeSamples_succ_cases f.buf n f.cur f.openChannel.pred with ⟨hparse, herr⟩ | ⟨code, hparse, hv, herr⟩ |
      ⟨code, v, hparse, hv, hrest⟩
    · cases herr.symm.trans h
      refine ⟨0, Nat.zero_le _, f, .refl f, ?_⟩
      rw [tick_of_lt .decode hch (by omega), sample_decode_of_none c hparse]
    · cases herr.symm.trans h
      refine ⟨0, Nat.zero_le _, f, .refl f, ?_⟩
      rw [tick_of_lt .decode hch (by omega), sample_decode_of_some c hparse, consume_of_none hv]
    · rw [hrest] at h
      cases hloop : decodeSamples f.buf n (f.cur + codeLength code) v with
      | ok r => rw [hloop] at h; cases h
      | error k' =>
        rw [hloop] at h
        cases h
        have htick := tick_decode_sample hch (by omega) hparse hv
        obtain ⟨m, hm, g, hruns, hlast⟩ := ih { f with
          pred := v, chan := f.chan.push c v, cur := f.cur + codeLength code, idx := f.idx + 1 } hch
          (by simp only; omega) (by simpa [openChannel_pred] using hloop)
        exact ⟨m + 1, by omega, g, .step htick hruns, hlast⟩

/-- R83, R84: a channel whose loop fails ends the run. -/
theorem endsBy_of_channel_error {f : Fc} {c : Channel} {k : ErrorKind} {N : Nat} (hch : f.ch = some c)
    (hidx : f.idx = 0) (h : decodeSamples f.buf f.count f.cur 0#8 = .error k) (hN : f.count ≤ N) :
    Fc.EndsBy .decode N f (.error k) := by
  obtain ⟨m, hm, hends⟩ := ends_decode_channel c f.count f k hch (by rw [hidx, Nat.zero_add])
    (by rwa [openChannel_pred, if_pos hidx])
  exact ⟨m, hm.trans hN, hends⟩

/-- R82, R84: a channel whose loop completes hands the run on to the next channel, at sample 0. -/
theorem endsBy_of_channel_ok {f : Fc} {c : Channel} {vs : List Byte} {cur M N : Nat} {r : Response}
    (hch : f.ch = some c) (hidx : f.idx = 0) (h : decodeSamples f.buf f.count f.cur 0#8 = .ok (vs, cur))
    (hN : f.count + 1 + M ≤ N)
    (hnext : ∀ p, Fc.EndsBy .decode M { f with
      ch := nextChannel c, idx := 0, cur := cur, pred := p, chan := f.chan.pushAll c vs } r) :
    Fc.EndsBy .decode N f r := by
  obtain ⟨p, hruns⟩ := runs_decode_channel c f.count f vs cur hch (by rw [hidx, Nat.zero_add])
    (by rwa [openChannel_pred, if_pos hidx])
  obtain ⟨m, hm, hends⟩ := hnext p
  exact ⟨_, by omega, ends_of_runs hruns hends⟩

/-- R82 steps 2 to 4: the response of a DECODE once its header is read. -/
def decodeBody (buf : List Byte) (w h : Half) : Response :=
  match decodeChannels buf (w.toNat * h.toNat) with
  | .error k => .error k
  | .ok cs => .image w h (zipPixels cs.red cs.green cs.blue)

theorem decodeBody_of_error {buf : List Byte} {w h : Half} {k : ErrorKind}
    (hloops : decodeChannels buf (w.toNat * h.toNat) = .error k) : decodeBody buf w h = .error k := by
  simp only [decodeBody, hloops]

theorem decodeBody_of_ok {buf : List Byte} {w h : Half} {cs : ChannelSeqs}
    (hloops : decodeChannels buf (w.toNat * h.toNat) = .ok cs) :
    decodeBody buf w h = .image w h (zipPixels cs.red cs.green cs.blue) := by
  simp only [decodeBody, hloops]

/-- R82, R84: past its header a DECODE run ends within 3 x count + 3 iterations and one more, as its loops say. -/
theorem endsBy_decode (buf : List Byte) (w h : Half) :
    Fc.EndsBy .decode (3 * (w.toNat * h.toNat) + 3) ((Fc.startDecode buf).takeHeader w h) (decodeBody buf w h) := by
  cases hred : decodeSamples buf (w.toNat * h.toNat) 32 0#8 with
  | error k =>
    rw [decodeBody_of_error (k := k) (by simp only [decodeChannels, hred])]
    exact endsBy_of_channel_error rfl rfl hred (by rw [takeHeader_count]; omega)
  | ok r1 =>
    refine endsBy_of_channel_ok (M := 2 * (w.toNat * h.toNat) + 2) rfl rfl hred
      (by rw [takeHeader_count]; omega) fun p1 => ?_
    cases hgreen : decodeSamples buf (w.toNat * h.toNat) r1.2 0#8 with
    | error k =>
      rw [decodeBody_of_error (k := k) (by simp only [decodeChannels, hred, hgreen])]
      exact endsBy_of_channel_error rfl rfl hgreen (by rw [takeHeader_count]; omega)
    | ok r2 =>
      refine endsBy_of_channel_ok (M := w.toNat * h.toNat + 1) rfl rfl hgreen
        (by rw [takeHeader_count]; omega) fun p2 => ?_
      cases hblue : decodeSamples buf (w.toNat * h.toNat) r2.2 0#8 with
      | error k =>
        rw [decodeBody_of_error (k := k) (by simp only [decodeChannels, hred, hgreen, hblue])]
        exact endsBy_of_channel_error rfl rfl hblue (by rw [takeHeader_count]; omega)
      | ok r3 =>
        refine endsBy_of_channel_ok (M := 0) rfl rfl hblue (by rw [takeHeader_count]) fun p3 => ?_
        rw [decodeBody_of_ok (cs := ⟨r1.1, r2.1, r3.1⟩) (by simp only [decodeChannels, hred, hgreen, hblue])]
        refine ⟨0, le_rfl, _, .refl _, ?_⟩
        rw [tick_of_done .decode rfl]
        simp only [Fc.result, pushAll_eq]
        rfl

/-- The two reads of the header fit a buffer of 4 bytes or more (R45, R82). -/
theorem header_reads_of_le {buf : List Byte} (h : 4 ≤ buf.length) :
    readBits buf 0 16 = some (bitRead buf 0 16) ∧ readBits buf 16 16 = some (bitRead buf 16 16) :=
  ⟨(readBits_eq_some buf 0 16 _).mpr ⟨by omega, rfl⟩, (readBits_eq_some buf 16 16 _).mpr ⟨by omega, rfl⟩⟩

theorem decodeHeader_of_le {buf : List Byte} (h : 4 ≤ buf.length) :
    decodeHeader buf = some (BitVec.ofNat 16 (bitRead buf 0 16), BitVec.ofNat 16 (bitRead buf 16 16)) := by
  obtain ⟨hw, hh⟩ := header_reads_of_le h
  simp only [decodeHeader, Config.dimBits, hw, hh]

/-- A header that is read stands in the first 4 bytes (R45). -/
theorem decodeHeader_some {buf : List Byte} {w h : Half} (hread : decodeHeader buf = some (w, h)) :
    4 ≤ buf.length ∧ w.toNat = bitRead buf 0 16 ∧ h.toNat = bitRead buf 16 16 := by
  rcases Nat.lt_or_ge buf.length 4 with hlt | hle
  · rw [decodeHeader_of_length_lt buf hlt] at hread
    cases hread
  · rw [decodeHeader_of_le hle] at hread
    cases hread
    exact ⟨hle, toNat_port_bitRead _ _ _ le_rfl, toNat_port_bitRead _ _ _ le_rfl⟩

/-- R82: DECODE's response when its header is read. -/
theorem decodeFrame_of_header {buf : List Byte} {w h : Half} (hread : decodeHeader buf = some (w, h)) :
    decodeFrame buf = decodeBody buf w h := by
  obtain ⟨hlen, hw, hh⟩ := decodeHeader_some hread
  obtain ⟨hreadw, hreadh⟩ := header_reads_of_le hlen
  cases hloops : decodeChannels buf (w.toNat * h.toNat) with
  | error k => simp only [decodeFrame, decodeBody, hreadw, hreadh, ← hw, ← hh, hloops]
  | ok cs =>
    simp only [decodeFrame, decodeBody, hreadw, hreadh, ← hw, ← hh, hloops, BitVec.ofNat_toNat, BitVec.setWidth_eq]

/-- R83: DECODE's response when its header is not. -/
theorem decodeFrame_of_no_header {buf : List Byte} (hread : decodeHeader buf = none) :
    decodeFrame buf = .error .truncatedBuffer := by
  have hlen : buf.length < 4 := by
    by_contra hle
    rw [decodeHeader_of_le (Nat.le_of_not_lt hle)] at hread
    cases hread
  have hheight : readBits buf 16 16 = none := (readBits_eq_none _ _ _).mpr (by omega)
  cases hwidth : readBits buf 0 16 <;> simp only [decodeFrame, hwidth, hheight]

/-- R82 to R84: the atomic DECODE answers what its loops give. -/
theorem exec_decode (buf : List Byte) (s : State) : exec (.decode buf) s = .next (s.respond (decodeFrame buf)) := by
  simp only [exec, execDecode]
  cases hread : decodeHeader buf with
  | none => rw [decodeFrame_of_no_header hread]; rfl
  | some wh =>
    obtain ⟨n, hn, hends⟩ := endsBy_decode buf wh.1 wh.2
    have hdrive := drive_of_ends hends (Nat.lt_succ_of_le hn)
    rw [decodeFrame_of_header (w := wh.1) (h := wh.2) hread]
    exact (answer_next s _ _).mpr ⟨_, hdrive, rfl⟩

/-- Settles O46: the sequencer's outcome is that of the loops. -/
theorem decodeFollowsItsLoops : Obligations.DecodeFollowsItsLoops :=
  exec_decode

/-- Settles O52: both walk the same iterations; where the header does not fit, both answer TruncatedBuffer. -/
theorem steppedDecodeAgreesWithDecode : Obligations.SteppedDecodeAgreesWithDecode := by
  intro buf s hrun hfc
  have hend (r : Response) :
      ({ s with run := some .decode, fc := Fc.startDecode buf } : State).endRun r = s.respond r := by
    cases s; cases hrun; cases hfc; rfl
  have hstep := step_of_run (s := { s with run := some .decode, fc := Fc.startDecode buf }) rfl
  rw [exec_decode]
  cases hread : decodeHeader buf with
  | none =>
    refine ⟨1, by omega, ?_⟩
    rw [advance_decode_truncated rfl hread, progress_finished, hend] at hstep
    rw [decodeFrame_of_no_header hread, core_run_succ 0 hstep]
    rfl
  | some wh =>
    obtain ⟨_, hw, hh⟩ := decodeHeader_some (w := wh.1) (h := wh.2) hread
    obtain ⟨n, hn, hends⟩ := endsBy_decode buf wh.1 wh.2
    rw [hw, hh] at hn
    refine ⟨n + 1 + 1, by omega, ?_⟩
    rw [advance_decode_header (w := wh.1) (ht := wh.2) rfl hread, progress_running] at hstep
    rw [decodeFrame_of_header (w := wh.1) (h := wh.2) hread, core_run_succ (n + 1) hstep, ← hend]
    exact core_run_of_ends _ hends rfl rfl

end Sys2Proof.Machine
end

section
/-! PROOFS. ENCODE's validation: 43_frame_codec.md rule R81, 60_exceptions.md rules R87, R88 and R93. -/

namespace Sys2Proof.Machine

theorem narrowPixel_rawPixel (px : Pixel) : narrowPixel (rawPixel px) = some px := by
  have hbyte (x : Byte) : inSampleRange (x.toNat : Int) = true := by
    have := x.isLt
    rw [inSampleRange_iff]; omega
  simp only [narrowPixel, rawPixel, hbyte, Bool.and_self, if_true, BitVec.ofInt_natCast, BitVec.ofNat_toNat,
    BitVec.setWidth_eq]

/-- A sequence passes the sample check pixel by pixel (R81). -/
theorem narrowPixels_cons_of_some {px : RawPixel} {p : Pixel} (rest : List RawPixel) (h : narrowPixel px = some p) :
    narrowPixels (px :: rest) = (narrowPixels rest).map (p :: ·) := by
  simp only [narrowPixels, h]
  cases narrowPixels rest <;> rfl

theorem narrowPixels_cons_of_none {px : RawPixel} (rest : List RawPixel) (h : narrowPixel px = none) :
    narrowPixels (px :: rest) = none := by
  simp only [narrowPixels, h]

theorem narrowPixels_map_rawPixel (pixels : List Pixel) : narrowPixels (pixels.map rawPixel) = some pixels := by
  induction pixels with
  | nil => rfl
  | cons px rest ih => rw [List.map_cons, narrowPixels_cons_of_some _ (narrowPixel_rawPixel px), ih]; rfl

/-- One pixel that fails makes the sequence fail (R81). -/
theorem narrowPixels_of_mem {pixels : List RawPixel} {px : RawPixel} (hmem : px ∈ pixels) (h : narrowPixel px = none) :
    narrowPixels pixels = none := by
  induction pixels with
  | nil => cases hmem
  | cons p rest ih =>
    cases hp : narrowPixel p with
    | none => exact narrowPixels_cons_of_none rest hp
    | some q =>
      rcases List.mem_cons.mp hmem with rfl | hrest
      · cases h.symm.trans hp
      · rw [narrowPixels_cons_of_some rest hp, ih hrest, Option.map_none]

theorem narrowPixels_length {pixels : List RawPixel} {ps : List Pixel} (h : narrowPixels pixels = some ps) :
    ps.length = pixels.length := by
  induction pixels generalizing ps with
  | nil => cases h; rfl
  | cons p rest ih =>
    cases hp : narrowPixel p with
    | none => rw [narrowPixels_cons_of_none rest hp] at h; cases h
    | some q =>
      rw [narrowPixels_cons_of_some rest hp] at h
      obtain ⟨qs, hqs, rfl⟩ := Option.map_eq_some_iff.mp h
      rw [List.length_cons, List.length_cons, ih hqs]

/-- The dimensions and the length of a request pass validation (R81). -/
def dimensionsOk (w h : Int) (n : Nat) : Prop :=
  (0 ≤ w ∧ w ≤ 65535) ∧ (0 ≤ h ∧ h ≤ 65535) ∧ (n : Int) = w * h

/-- R81, R87, R93: the dimensions and the length are checked first. -/
theorem validate_of_not_dimensionsOk {w h : Int} {pixels : List RawPixel} (hbad : ¬ dimensionsOk w h pixels.length) :
    validate w h pixels = .error .invalidDimension := by
  unfold validate
  split
  · rfl
  · next hw =>
    split
    · rfl
    · next hh =>
      rw [Bool.not_eq_false, inDimRange_iff] at hw hh
      exact if_pos fun hlen => hbad ⟨hw, hh, hlen⟩

/-- R81, R88: then the samples are. -/
theorem validate_of_narrowPixels_none {w h : Int} {pixels : List RawPixel} (hok : dimensionsOk w h pixels.length)
    (hps : narrowPixels pixels = none) : validate w h pixels = .error .outOfRangeSample := by
  obtain ⟨hw, hh, hlen⟩ := hok
  rw [← inDimRange_iff] at hw hh
  simp only [validate, hw, hh, hlen, Bool.true_eq_false, if_false, ne_eq, not_true_eq_false, hps]

/-- R81: a request that passes every check is an image. -/
theorem validate_of_narrowPixels_some {w h : Int} {pixels : List RawPixel} {ps : List Pixel}
    (hok : dimensionsOk w h pixels.length) (hps : narrowPixels pixels = some ps) :
    validate w h pixels = .ok { width := BitVec.ofInt 16 w, height := BitVec.ofInt 16 h, pixels := ps } := by
  obtain ⟨hw, hh, hlen⟩ := hok
  rw [← inDimRange_iff] at hw hh
  simp only [validate, hw, hh, hlen, Bool.true_eq_false, if_false, ne_eq, not_true_eq_false, hps]

/-- An image that passes validation has the pixels its dimensions ask for (R81). -/
theorem validate_ok_length {w h : Int} {pixels : List RawPixel} {img : Image} (hval : validate w h pixels = .ok img) :
    img.pixels.length = img.width.toNat * img.height.toNat := by
  by_cases hok : dimensionsOk w h pixels.length
  · cases hps : narrowPixels pixels with
    | none => rw [validate_of_narrowPixels_none hok hps] at hval; cases hval
    | some ps =>
      rw [validate_of_narrowPixels_some hok hps] at hval
      cases hval
      obtain ⟨⟨hw0, hw⟩, ⟨hh0, hh⟩, hlen⟩ := hok
      lift w to Nat using hw0
      lift h to Nat using hh0
      have hlen' : pixels.length = w * h := by exact_mod_cast hlen
      have hw' : w % 2 ^ 16 = w := Nat.mod_eq_of_lt (by omega)
      have hh' : h % 2 ^ 16 = h := Nat.mod_eq_of_lt (by omega)
      simp only [BitVec.ofInt_natCast, BitVec.toNat_ofNat, hw', hh', narrowPixels_length hps, hlen']
  · rw [validate_of_not_dimensionsOk hok] at hval
    cases hval

/-- What an ENCODE's validation can answer (R81, R86). -/
theorem validate_cases (w h : Int) (pixels : List RawPixel) :
    (∃ img, validate w h pixels = .ok img ∧ img.pixels.length = img.width.toNat * img.height.toNat) ∨
      ∃ k, validate w h pixels = .error k ∧ (k = .invalidDimension ∨ k = .outOfRangeSample) := by
  by_cases hok : dimensionsOk w h pixels.length
  · cases hps : narrowPixels pixels with
    | none => exact .inr ⟨_, validate_of_narrowPixels_none hok hps, .inr rfl⟩
    | some ps =>
      have hval := validate_of_narrowPixels_some hok hps
      exact .inl ⟨_, hval, validate_ok_length hval⟩
  · exact .inr ⟨_, validate_of_not_dimensionsOk hok, .inl rfl⟩

/-- A valid image's request passes validation as that image (R85 (a)). -/
theorem validate_rawPixels (w h : Half) (pixels : List Pixel) (hlen : pixels.length = w.toNat * h.toNat) :
    validate w.toNat h.toNat (pixels.map rawPixel) = .ok { width := w, height := h, pixels := pixels } := by
  have hw := w.isLt
  have hh := h.isLt
  have hok : dimensionsOk w.toNat h.toNat (pixels.map rawPixel).length :=
    ⟨by omega, by omega, by rw [List.length_map, hlen, Nat.cast_mul]⟩
  rw [validate_of_narrowPixels_some hok (narrowPixels_map_rawPixel pixels)]
  simp only [BitVec.ofInt_natCast, BitVec.ofNat_toNat, BitVec.setWidth_eq]

theorem exec_encode_of_error {w h : Int} {pixels : List RawPixel} {k : ErrorKind} (s : State)
    (hval : validate w h pixels = .error k) : exec (.encode w h pixels) s = .next (s.raise k) := by
  simp only [exec, execEncode, hval]

/-- Settles O45: the dimension checks decide before the samples are looked at. -/
theorem encodeValidatesItsRequest : Obligations.EncodeValidatesItsRequest := by
  intro w h pixels s
  refine ⟨fun hbad => ?_, fun hw0 hw hh0 hh hlen hsample => ?_⟩
  · refine exec_encode_of_error s (validate_of_not_dimensionsOk ?_)
    rintro ⟨⟨hw0, hw⟩, ⟨hh0, hh⟩, hlen⟩
    omega
  · obtain ⟨px, hpx, x, hx, hout⟩ := hsample
    have hnarrow : narrowPixel px = none := by
      rw [narrowPixel_eq_none]
      simp only [List.mem_cons, List.not_mem_nil, or_false] at hx
      rcases hx with rfl | rfl | rfl <;> omega
    exact exec_encode_of_error s
      (validate_of_narrowPixels_none ⟨⟨hw0, hw⟩, ⟨hh0, hh⟩, hlen⟩ (narrowPixels_of_mem hpx hnarrow))

end Sys2Proof.Machine
end

section
/-! PROOFS. ENCODE's sequencer against the frame: 43_frame_codec.md rules R80 and R84, 30_encoding.md rules R46 and
R52. -/

namespace Sys2Proof

/-- A buffer is determined by its stream (R26). -/
theorem unpack_injective (a b : List Byte) (h : unpack a = unpack b) : a = b := by
  induction a generalizing b with
  | nil =>
    have hlen := congrArg List.length h
    rw [unpack_nil, List.length_nil, unpack_length] at hlen
    exact (List.length_eq_zero_iff.mp (by omega)).symm
  | cons x a ih =>
    cases b with
    | nil => rw [unpack_cons, unpack_nil] at h; cases h
    | cons y b =>
      rw [unpack_cons, unpack_cons] at h
      obtain ⟨hbyte, hrest⟩ := List.append_inj h (by simp)
      have hnat := congrArg uint hbyte
      rw [uint_bitsN, uint_bitsN, Nat.mod_eq_of_lt x.isLt, Nat.mod_eq_of_lt y.isLt] at hnat
      rw [ih b hrest, BitVec.eq_of_toNat_eq hnat]

end Sys2Proof

namespace Sys2Proof.Machine

/-- R52, R62 (c): what FINALIZE returns of a stream appended to an empty writer is the stream packed. -/
theorem empty_append_finalize_out (stream : List Bit) :
    (BitWriter.empty.append stream).finalize.out = packBits stream := by
  obtain ⟨_, _, _, _, hflush⟩ := empty_append_laws stream
  exact unpack_injective _ _ (hflush.trans (unpack_packBits stream).symm)

/-- R46: the bits of a channel from a predictor. -/
theorem flatMap_ser_channelCodes_cons (pred x : Byte) (xs : List Byte) :
    (channelCodes pred (x :: xs)).flatMap ser = ser (encodeValue pred x) ++ (channelCodes x xs).flatMap ser := rfl

/-- R80, R84: the iterations of one channel append its codes' bits to the run's writer. -/
theorem runs_encode_samples (c : Channel) (n : Nat) (f : Fc) (hch : f.ch = some c) (hidx : f.idx + n = f.count)
    (hpix : f.pixels.length = f.count) :
    ∃ p, Fc.Runs .encode (n + 1) f { f with
      ch := nextChannel c, idx := 0, pred := p,
      bw := f.bw.append ((channelCodes f.openChannel.pred
        ((f.pixels.drop f.idx).map fun px => component px c)).flatMap ser) } := by
  induction n generalizing f with
  | zero =>
    have htick := tick_of_channel_complete .encode hch (by omega)
    rw [nextChannel_eq] at htick
    rw [List.drop_eq_nil_of_le (by omega)]
    exact ⟨_, .step htick (.refl _)⟩
  | succ n ih =>
    have hlt : f.idx < f.pixels.length := by omega
    have hpx := List.getElem?_eq_getElem hlt
    have htick := tick_of_lt .encode hch (by omega)
    rw [sample_encode_of_some (dueSample_of_pixel c hpx)] at htick
    have hpred : (f.emit (component f.pixels[f.idx] c)).openChannel.pred = component f.pixels[f.idx] c := by
      rw [openChannel_pred, emit_idx, if_neg (Nat.succ_ne_zero _), emit_pred]
    obtain ⟨p, hruns⟩ := ih (f.emit (component f.pixels[f.idx] c)) hch (by rw [emit_idx, emit_count]; omega) hpix
    rw [hpred] at hruns
    rw [List.drop_eq_getElem_cons hlt, List.map_cons, flatMap_ser_channelCodes_cons, append_append]
    exact ⟨p, .step htick hruns⟩

/-- R46, R80, R84: a channel, from its sample 0 and predictor 0, hands the run on to the next with its bits appended. -/
theorem ends_of_encode_channel {f : Fc} {c : Channel} {count n : Nat} {r : Response} (hch : f.ch = some c)
    (hidx : f.idx = 0) (hcount : f.count = count) (hpix : f.pixels.length = count)
    (hnext : ∀ p, Fc.Ends .encode n { f with
      ch := nextChannel c, idx := 0, pred := p, bw := f.bw.append (channelBits c f.pixels) } r) :
    Fc.Ends .encode (count + 1 + n) f r := by
  obtain ⟨p, hruns⟩ := runs_encode_samples c count f hch (by rw [hidx, Nat.zero_add, hcount]) (hpix.trans hcount.symm)
  rw [openChannel_pred, if_pos hidx, hidx, List.drop_zero] at hruns
  exact ends_of_runs hruns (hnext p)

@[simp] theorem startEncode_bw (img : Image) : (Fc.startEncode img).bw = .empty := rfl
@[simp] theorem startEncode_width (img : Image) : (Fc.startEncode img).width = img.width := rfl
@[simp] theorem startEncode_height (img : Image) : (Fc.startEncode img).height = img.height := rfl

/-- R80 step 1: the header is the first the writer of a run takes. -/
theorem startEncode_emitHeader_bw (img : Image) :
    (Fc.startEncode img).emitHeader.bw = BitWriter.empty.append (headerBits img.width img.height) := by
  simp only [emitHeader_eq, startEncode_bw, startEncode_width, startEncode_height]

/-- R80, R84: past its header an ENCODE run ends after exactly 3 x count + 3 iterations and one more, with the frame. -/
theorem ends_encode (img : Image) (hlen : img.pixels.length = img.width.toNat * img.height.toNat) :
    Fc.Ends .encode (3 * (img.width.toNat * img.height.toNat) + 3) (Fc.startEncode img).emitHeader
      (.buffer (packBits (frameBits img.width img.height img.pixels))) := by
  have hsum (n : Nat) : 3 * n + 3 = n + 1 + (n + 1 + (n + 1 + 0)) := by omega
  rw [hsum]
  refine ends_of_encode_channel rfl rfl rfl hlen fun p1 => ?_
  refine ends_of_encode_channel rfl rfl rfl hlen fun p2 => ?_
  refine ends_of_encode_channel rfl rfl rfl hlen fun p3 => ⟨_, .refl _, ?_⟩
  rw [tick_of_done .encode rfl, ← empty_append_finalize_out, frameBits, append_append, append_append, append_append,
    ← startEncode_emitHeader_bw]
  rfl

/-- R80, R81: ENCODE of a request that passes validation answers the packed frame. -/
theorem exec_encode_of_ok {w h : Int} {pixels : List RawPixel} {img : Image} (s : State)
    (hval : validate w h pixels = .ok img) :
    exec (.encode w h pixels) s =
      .next (s.respond (.buffer (packBits (frameBits img.width img.height img.pixels)))) := by
  have hdrive := drive_of_ends (ends_encode img (validate_ok_length hval)) (Nat.lt_succ_self _)
  simp only [exec, execEncode, hval]
  exact (answer_next s _ _).mpr ⟨_, hdrive, rfl⟩

/-- R85 (a): ENCODE of a valid image. -/
theorem exec_encodeImage (w h : Half) (pixels : List Pixel) (s : State) (hlen : pixels.length = w.toNat * h.toNat) :
    exec (encodeImage w h pixels) s = .next (s.respond (.buffer (packBits (frameBits w h pixels)))) := by
  have hexec := exec_encode_of_ok s (validate_rawPixels w h pixels hlen)
  exact hexec

/-- Settles O44: the buffer is the frame packed, and packing pads to the byte boundary. -/
theorem encodeReturnsTheFrame : Obligations.EncodeReturnsTheFrame := by
  intro w h pixels s hlen
  exact ⟨_, exec_encodeImage w h pixels s hlen, unpack_packBits (frameBits w h pixels)⟩

/-- Settles O53: both walk the same 3 x count + 4 iterations, after the header's step. -/
theorem steppedEncodeAgreesWithEncode : Obligations.SteppedEncodeAgreesWithEncode := by
  intro w h pixels s hrun hfc hlen
  have hstep := step_of_run (s := { s with
    run := some .encode, fc := Fc.startEncode { width := w, height := h, pixels := pixels } }) rfl
  rw [advance_encode_header rfl, progress_running] at hstep
  rw [exec_encodeImage w h pixels s hlen, core_run_succ _ hstep]
  refine (core_run_of_ends _ (ends_encode _ hlen) rfl rfl).trans ?_
  cases s; cases hrun; cases hfc; rfl

/-- Settles O51: DECODE's response is read off the buffer, ENCODE's off the validated request. -/
theorem runsDependOnTheirRequestAlone : Obligations.RunsDependOnTheirRequestAlone := by
  refine ⟨fun w h pixels => ?_, fun buf => ⟨_, exec_decode buf⟩⟩
  rcases validate_cases w h pixels with ⟨img, hval, _⟩ | ⟨k, hval, _⟩
  · exact ⟨_, fun s => exec_encode_of_ok s hval⟩
  · exact ⟨_, fun s => exec_encode_of_error s hval⟩

end Sys2Proof.Machine
end

section
/-! PROOFS. The round trip of a frame: 43_frame_codec.md rule R85 (a). -/

namespace Sys2Proof.Machine

/-- R75, R82: the inner loop reads the values back from a channel's bits, wherever they stand in the stream, and leaves
the cursor behind them. -/
theorem decodeSamples_of_unpack_eq (buf : List Byte) (xs : List Byte) (pred : Byte) (before after : List Bit)
    (h : unpack buf = before ++ (channelCodes pred xs).flatMap ser ++ after) :
    decodeSamples buf xs.length before.length pred =
      .ok (xs, before.length + ((channelCodes pred xs).flatMap ser).length) := by
  induction xs generalizing pred before with
  | nil => rfl
  | cons x xs ih =>
    rw [flatMap_ser_channelCodes_cons] at h ⊢
    have hparse := parse_of_unpack_eq buf before ((channelCodes x xs).flatMap ser ++ after) (encodeValue pred x)
      (by simpa using h)
    have hrest := ih x (before ++ ser (encodeValue pred x)) (by simpa using h)
    rw [List.length_append] at hrest
    simp only [List.length_cons, decodeSamples, hparse, decodeValue_encodeValue, hrest, List.length_append,
      Nat.add_assoc]

theorem zipPixels_components (pixels : List Pixel) :
    zipPixels (pixels.map fun px => component px .red) (pixels.map fun px => component px .green)
      (pixels.map fun px => component px .blue) = pixels := by
  induction pixels with
  | nil => rfl
  | cons px rest ih => rw [List.map_cons, List.map_cons, List.map_cons, zipPixels, ih]; rfl

/-- R46, R82: the inner loop on a channel's substream. -/
theorem decodeSamples_of_channelBits {buf : List Byte} {pixels : List Pixel} (c : Channel) (before after : List Bit)
    (h : unpack buf = before ++ channelBits c pixels ++ after) :
    decodeSamples buf pixels.length before.length 0#8 =
      .ok (pixels.map fun px => component px c, before.length + (channelBits c pixels).length) := by
  have hloop := decodeSamples_of_unpack_eq buf (pixels.map fun px => component px c) 0#8 before after h
  rwa [List.length_map] at hloop

/-- R46, R82: the outer loop on a frame's bits: the three component sequences, the cursor ending at the frame's
length. -/
theorem loops_of_frameBits {buf : List Byte} {w h : Half} {pixels : List Pixel} {after : List Bit}
    (hbuf : unpack buf = frameBits w h pixels ++ after) :
    ∃ cur1 cur2,
      decodeSamples buf pixels.length 32 0#8 = .ok (pixels.map fun px => component px .red, cur1) ∧
      decodeSamples buf pixels.length cur1 0#8 = .ok (pixels.map fun px => component px .green, cur2) ∧
      decodeSamples buf pixels.length cur2 0#8 =
        .ok (pixels.map fun px => component px .blue, (frameBits w h pixels).length) := by
  rw [frameBits] at hbuf ⊢
  have hred := decodeSamples_of_channelBits .red (headerBits w h)
    (channelBits .green pixels ++ channelBits .blue pixels ++ after) (by simpa using hbuf)
  have hgreen := decodeSamples_of_channelBits .green (headerBits w h ++ channelBits .red pixels)
    (channelBits .blue pixels ++ after) (by simpa using hbuf)
  have hblue := decodeSamples_of_channelBits .blue
    (headerBits w h ++ channelBits .red pixels ++ channelBits .green pixels) after hbuf
  rw [headerBits_length] at hred
  rw [List.length_append, headerBits_length] at hgreen
  rw [List.length_append, List.length_append, headerBits_length] at hblue
  refine ⟨_, _, hred, hgreen, ?_⟩
  simp only [List.length_append, headerBits_length]
  exact hblue

/-- R46, R82, R85: DECODE of any buffer that begins with a valid image's frame answers the image. -/
theorem decodeFrame_of_frameBits {buf : List Byte} {w h : Half} {pixels : List Pixel} {after : List Bit}
    (hlen : pixels.length = w.toNat * h.toNat) (hbuf : unpack buf = frameBits w h pixels ++ after) :
    decodeFrame buf = .image w h pixels := by
  obtain ⟨cur1, cur2, hred, hgreen, hblue⟩ := loops_of_frameBits hbuf
  have hread : decodeHeader buf = some (w, h) :=
    decodeHeader_of_unpack_eq buf w h
      (channelBits .red pixels ++ channelBits .green pixels ++ channelBits .blue pixels ++ after)
      (by simpa [frameBits] using hbuf)
  rw [hlen] at hred hgreen hblue
  rw [decodeFrame_of_header hread, decodeBody_of_ok (by simp only [decodeChannels, hred, hgreen, hblue]; rfl)]
  exact congrArg _ (zipPixels_components pixels)

/-- Settles O47: ENCODE's buffer begins with the frame, and DECODE reads the image back from it. -/
theorem frameRoundTrips : Obligations.FrameRoundTrips := by
  intro w h pixels s hlen
  refine ⟨_, exec_encodeImage w h pixels s hlen, fun t => ?_⟩
  have hdec := exec_decode (packBits (frameBits w h pixels)) t
  rwa [decodeFrame_of_frameBits hlen (unpack_packBits _)] at hdec

end Sys2Proof.Machine
end

section
/-! PROOFS. DECODE of a buffer with bytes after it, of a frame cut short, and the size of the image: 43_frame_codec.md
rules R82, R83, R98 and 30_encoding.md rule R51. -/

namespace Sys2Proof.Machine

/-- A code that is read is read the same with more bytes after it (R51, R74). -/
theorem parse_append {buf : List Byte} {p n : Nat} {c : Code} (extra : List Byte) (h : parse buf p = some (c, n)) :
    parse (buf ++ extra) p = some (c, n) := by
  obtain ⟨rfl, hin, hslice, _⟩ := parsedCodeStandsInTheBuffer buf p c n h
  refine parse_of_slice_eq (buf ++ extra) p c ?_ (by rw [List.length_append]; omega)
  rw [unpack_append, List.drop_append_of_le_length (by rw [unpack_length]; omega),
    List.take_append_of_le_length (by rw [List.length_drop, unpack_length]; omega), hslice]

/-- More bytes after the buffer change the outcome of the inner loop only where a bit was missing (R51, R83). -/
theorem decodeSamples_append {buf : List Byte} {n cur : Nat} {pred : Byte} {r : Except ErrorKind (List Byte × Nat)}
    (extra : List Byte) (h : decodeSamples buf n cur pred = r) (hr : r ≠ .error .truncatedBuffer) :
    decodeSamples (buf ++ extra) n cur pred = r := by
  induction n generalizing cur pred r with
  | zero => exact h
  | succ n ih =>
    rcases decodeSamples_succ_cases buf n cur pred with ⟨_, htrunc⟩ | ⟨code, hparse, hv, hout⟩ |
      ⟨code, v, hparse, hv, hrest⟩
    · exact absurd (h.symm.trans htrunc) hr
    · rw [← h, hout]
      simp only [decodeSamples, parse_append extra hparse, hv]
    · cases hloop : decodeSamples buf n (cur + codeLength code) v with
      | error k =>
        rw [hrest, hloop] at h
        subst h
        have hrest' := ih hloop (by simpa [Except.map] using hr)
        simp only [decodeSamples, parse_append extra hparse, hv, hrest']
        rfl
      | ok p =>
        rw [hrest, hloop] at h
        subst h
        have hrest' := ih hloop (by nofun)
        simp only [decodeSamples, parse_append extra hparse, hv, hrest']
        rfl

/-- The kinds the inner loop raises (R83, R86). -/
theorem decodeSamples_error_kind {buf : List Byte} {n cur : Nat} {pred : Byte} {k : ErrorKind}
    (h : decodeSamples buf n cur pred = .error k) : k = .truncatedBuffer ∨ k = .deltaOutOfRange := by
  induction n generalizing cur pred with
  | zero => cases h
  | succ n ih =>
    rcases decodeSamples_succ_cases buf n cur pred with ⟨_, herr⟩ | ⟨_, _, _, herr⟩ | ⟨code, v, _, _, hrest⟩
    · cases herr.symm.trans h; exact .inl rfl
    · cases herr.symm.trans h; exact .inr rfl
    · cases hloop : decodeSamples buf n (cur + codeLength code) v with
      | error k' => rw [hrest, hloop] at h; cases h; exact ih hloop
      | ok r => rw [hrest, hloop] at h; cases h

/-- The inner loop answers as many values as it is asked for, and its cursor stays in the buffer (R82). -/
theorem decodeSamples_ok_bounds {buf : List Byte} {n cur cur' : Nat} {pred : Byte} {vs : List Byte}
    (h : decodeSamples buf n cur pred = .ok (vs, cur')) :
    vs.length = n ∧ (cur ≤ 8 * buf.length → cur' ≤ 8 * buf.length) := by
  induction n generalizing cur pred vs with
  | zero => cases h; exact ⟨rfl, id⟩
  | succ n ih =>
    rcases decodeSamples_succ_cases buf n cur pred with ⟨_, herr⟩ | ⟨_, _, _, herr⟩ | ⟨code, v, hparse, _, hrest⟩
    · cases herr.symm.trans h
    · cases herr.symm.trans h
    · cases hloop : decodeSamples buf n (cur + codeLength code) v with
      | error k' => rw [hrest, hloop] at h; cases h
      | ok r =>
        rw [hrest, hloop] at h
        cases h
        obtain ⟨hlen, hcur⟩ := ih hloop
        obtain ⟨_, hin, _⟩ := parsedCodeStandsInTheBuffer buf cur code _ hparse
        exact ⟨by rw [List.length_cons, hlen], fun _ => hcur hin⟩

/-- R82, the three inner loops of a DECODE whose outer loop completes, the cursor running on from 32. -/
def channelLoops (buf : List Byte) (count : Nat) (cs : ChannelSeqs) (cur1 cur2 cur3 : Nat) : Prop :=
  decodeSamples buf count 32 0#8 = .ok (cs.red, cur1) ∧ decodeSamples buf count cur1 0#8 = .ok (cs.green, cur2) ∧
    decodeSamples buf count cur2 0#8 = .ok (cs.blue, cur3)

theorem decodeChannels_of_loops {buf : List Byte} {count cur1 cur2 cur3 : Nat} {cs : ChannelSeqs}
    (h : channelLoops buf count cs cur1 cur2 cur3) : decodeChannels buf count = .ok cs := by
  obtain ⟨hred, hgreen, hblue⟩ := h
  simp only [decodeChannels, hred, hgreen, hblue]

/-- R82, R83: the outer loop completes with its three inner loops, or fails as one of them does. -/
theorem decodeChannels_cases (buf : List Byte) (count : Nat) :
    (∃ cs cur1 cur2 cur3, channelLoops buf count cs cur1 cur2 cur3 ∧ decodeChannels buf count = .ok cs) ∨
      ∃ cur k, decodeSamples buf count cur 0#8 = .error k ∧ decodeChannels buf count = .error k := by
  cases hred : decodeSamples buf count 32 0#8 with
  | error k => exact .inr ⟨32, k, hred, by simp only [decodeChannels, hred]⟩
  | ok r1 =>
    cases hgreen : decodeSamples buf count r1.2 0#8 with
    | error k => exact .inr ⟨r1.2, k, hgreen, by simp only [decodeChannels, hred, hgreen]⟩
    | ok r2 =>
      cases hblue : decodeSamples buf count r2.2 0#8 with
      | error k => exact .inr ⟨r2.2, k, hblue, by simp only [decodeChannels, hred, hgreen, hblue]⟩
      | ok r3 =>
        have hloops : channelLoops buf count ⟨r1.1, r2.1, r3.1⟩ r1.2 r2.2 r3.2 := ⟨hred, hgreen, hblue⟩
        exact .inl ⟨_, _, _, _, hloops, decodeChannels_of_loops hloops⟩

theorem channelLoops_append {buf : List Byte} {count cur1 cur2 cur3 : Nat} {cs : ChannelSeqs} (extra : List Byte)
    (h : channelLoops buf count cs cur1 cur2 cur3) : channelLoops (buf ++ extra) count cs cur1 cur2 cur3 := by
  obtain ⟨hred, hgreen, hblue⟩ := h
  exact ⟨decodeSamples_append extra hred nofun, decodeSamples_append extra hgreen nofun,
    decodeSamples_append extra hblue nofun⟩

/-- More bytes after the buffer change the outcome of the outer loop only where a bit was missing (R51, R83). -/
theorem decodeChannels_append {buf : List Byte} {count : Nat} (extra : List Byte)
    (h : decodeChannels buf count ≠ .error .truncatedBuffer) :
    decodeChannels (buf ++ extra) count = decodeChannels buf count := by
  cases hred : decodeSamples buf count 32 0#8 with
  | error k =>
    have herr : decodeChannels buf count = .error k := by simp only [decodeChannels, hred]
    have hred' := decodeSamples_append extra hred (by simpa [herr] using h)
    rw [herr]
    simp only [decodeChannels, hred']
  | ok r1 =>
    have hred' := decodeSamples_append extra hred nofun
    cases hgreen : decodeSamples buf count r1.2 0#8 with
    | error k =>
      have herr : decodeChannels buf count = .error k := by simp only [decodeChannels, hred, hgreen]
      have hgreen' := decodeSamples_append extra hgreen (by simpa [herr] using h)
      rw [herr]
      simp only [decodeChannels, hred', hgreen']
    | ok r2 =>
      have hgreen' := decodeSamples_append extra hgreen nofun
      cases hblue : decodeSamples buf count r2.2 0#8 with
      | error k =>
        have herr : decodeChannels buf count = .error k := by simp only [decodeChannels, hred, hgreen, hblue]
        have hblue' := decodeSamples_append extra hblue (by simpa [herr] using h)
        rw [herr]
        simp only [decodeChannels, hred', hgreen', hblue']
      | ok r3 =>
        have hblue' := decodeSamples_append extra hblue nofun
        simp only [decodeChannels, hred, hgreen, hblue, hred', hgreen', hblue']

/-- What DECODE answers with an image has read (R82). -/
theorem decodeFrame_image {buf : List Byte} {w h : Half} {pixels : List Pixel}
    (himg : decodeFrame buf = .image w h pixels) :
    decodeHeader buf = some (w, h) ∧ ∃ cs cur1 cur2 cur3,
      channelLoops buf (w.toNat * h.toNat) cs cur1 cur2 cur3 ∧ pixels = zipPixels cs.red cs.green cs.blue := by
  cases hread : decodeHeader buf with
  | none => rw [decodeFrame_of_no_header hread] at himg; cases himg
  | some wh =>
    rw [decodeFrame_of_header (w := wh.1) (h := wh.2) hread] at himg
    rcases decodeChannels_cases buf (wh.1.toNat * wh.2.toNat) with ⟨cs, cur1, cur2, cur3, hloops, hok⟩ | ⟨_, _, _, herr⟩
    · rw [decodeBody_of_ok hok] at himg
      cases himg
      exact ⟨rfl, cs, cur1, cur2, cur3, hloops, rfl⟩
    · rw [decodeBody_of_error herr] at himg
      cases himg

/-- The responses of DECODE (R82, R86). -/
theorem decodeFrame_cases (buf : List Byte) :
    (∃ w h pixels, decodeFrame buf = .image w h pixels) ∨ decodeFrame buf = .error .truncatedBuffer ∨
      decodeFrame buf = .error .deltaOutOfRange := by
  cases hread : decodeHeader buf with
  | none => exact .inr (.inl (decodeFrame_of_no_header hread))
  | some wh =>
    rw [decodeFrame_of_header (w := wh.1) (h := wh.2) hread]
    rcases decodeChannels_cases buf (wh.1.toNat * wh.2.toNat) with ⟨_, _, _, _, _, hok⟩ | ⟨_, k, hloop, herr⟩
    · exact .inl ⟨_, _, _, decodeBody_of_ok hok⟩
    · rw [decodeBody_of_error herr]
      rcases decodeSamples_error_kind hloop with rfl | rfl
      · exact .inr (.inl rfl)
      · exact .inr (.inr rfl)

/-- A read inside a buffer is the same with more bytes after it (R28, R51). -/
theorem bitRead_append {buf : List Byte} {p n : Nat} (extra : List Byte) (h : p + n ≤ 8 * buf.length) :
    bitRead (buf ++ extra) p n = bitRead buf p n := by
  rw [bitRead, unpack_append, List.drop_append_of_le_length (by rw [unpack_length]; omega),
    List.take_append_of_le_length (by rw [List.length_drop, unpack_length]; omega)]
  rfl

/-- A header that is read is read the same with more bytes after it (R45, R51). -/
theorem decodeHeader_append {buf : List Byte} {wh : Half × Half} (extra : List Byte)
    (hread : decodeHeader buf = some wh) : decodeHeader (buf ++ extra) = some wh := by
  obtain ⟨hlen, _, _⟩ := decodeHeader_some (w := wh.1) (h := wh.2) hread
  rw [decodeHeader_of_le (by rw [List.length_append]; omega), bitRead_append extra (by omega),
    bitRead_append extra (by omega), ← decodeHeader_of_le hlen, hread]

/-- More bytes after the buffer change DECODE's response only where a bit was missing (R51, R83). -/
theorem decodeFrame_append {buf : List Byte} (extra : List Byte) (h : decodeFrame buf ≠ .error .truncatedBuffer) :
    decodeFrame (buf ++ extra) = decodeFrame buf := by
  cases hread : decodeHeader buf with
  | none => exact absurd (decodeFrame_of_no_header hread) h
  | some wh =>
    rw [decodeFrame_of_header (w := wh.1) (h := wh.2) hread] at h ⊢
    rw [decodeFrame_of_header (w := wh.1) (h := wh.2) (decodeHeader_append extra hread)]
    have hloops : decodeChannels buf (wh.1.toNat * wh.2.toNat) ≠ .error .truncatedBuffer :=
      fun htrunc => h (decodeBody_of_error htrunc)
    rw [decodeBody, decodeChannels_append extra hloops]
    rfl

/-- A DECODE answers what `decodeFrame` gives, and nothing else. -/
theorem exec_decode_eq_next {buf : List Byte} {s : State} {r : Response}
    (h : exec (.decode buf) s = .next { s with responses := r :: s.responses }) : decodeFrame buf = r := by
  rw [exec_decode] at h
  simpa [State.respond] using h

/-- Settles O49: an image is no TruncatedBuffer. -/
theorem decodeIgnoresWhatFollows : Obligations.DecodeIgnoresWhatFollows := by
  intro buf extra s w h pixels hexec
  have himg := exec_decode_eq_next hexec
  rw [exec_decode, decodeFrame_append extra (by rw [himg]; nofun), himg]
  rfl

theorem zipPixels_length (r g b : List Byte) (hg : g.length = r.length) (hb : b.length = r.length) :
    (zipPixels r g b).length = r.length := by
  induction r generalizing g b with
  | nil => rfl
  | cons x r ih =>
    obtain _ | ⟨y, g⟩ := g
    · cases hg
    · obtain _ | ⟨z, b⟩ := b
      · cases hb
      · rw [zipPixels, List.length_cons, List.length_cons, ih g b (by simpa using hg) (by simpa using hb)]

/-- Settles O50: each of the three loops answers count values. -/
theorem decodedImageHasItsSize : Obligations.DecodedImageHasItsSize := by
  intro buf s w h pixels hexec
  obtain ⟨hread, cs, _, _, _, ⟨hred, hgreen, hblue⟩, rfl⟩ := decodeFrame_image (exec_decode_eq_next hexec)
  have hlenr := (decodeSamples_ok_bounds hred).1
  have hleng := (decodeSamples_ok_bounds hgreen).1
  have hlenb := (decodeSamples_ok_bounds hblue).1
  have hzip := zipPixels_length cs.red cs.green cs.blue (hleng.trans hlenr.symm) (hlenb.trans hlenr.symm)
  exact ⟨by simp only [decode, hread], hzip.trans hlenr⟩

/-- R46, R83: a buffer of which a frame's image is decoded, and that the frame's buffer begins with, holds all the
frame's bits: the cursor ends at their number. -/
theorem frameBits_length_le {buf extra : List Byte} {w h : Half} {pixels : List Pixel} {after : List Bit}
    (hlen : pixels.length = w.toNat * h.toNat) (hframe : unpack (buf ++ extra) = frameBits w h pixels ++ after)
    (himg : decodeFrame buf = .image w h pixels) : (frameBits w h pixels).length ≤ 8 * buf.length := by
  obtain ⟨hread, cs, cur1, cur2, cur3, hloops, _⟩ := decodeFrame_image himg
  obtain ⟨hheader, _, _⟩ := decodeHeader_some hread
  obtain ⟨cur1', cur2', hred', hgreen', hblue'⟩ := loops_of_frameBits hframe
  obtain ⟨hred, hgreen, hblue⟩ := channelLoops_append extra hloops
  rw [hlen] at hred' hgreen' hblue'
  obtain ⟨_, rfl⟩ := Prod.mk.inj (Except.ok.inj (hred'.symm.trans hred))
  obtain ⟨_, rfl⟩ := Prod.mk.inj (Except.ok.inj (hgreen'.symm.trans hgreen))
  obtain ⟨_, rfl⟩ := Prod.mk.inj (Except.ok.inj (hblue'.symm.trans hblue))
  obtain ⟨hred, hgreen, hblue⟩ := hloops
  have hin1 := (decodeSamples_ok_bounds hred).2 (by omega)
  have hin2 := (decodeSamples_ok_bounds hgreen).2 hin1
  exact (decodeSamples_ok_bounds hblue).2 hin2

/-- The frame's buffer has fewer bits than the frame and a byte (R46, R52). -/
theorem packBits_length (stream : List Bit) : 8 * (packBits stream).length < stream.length + 8 := by
  have hlen := congrArg List.length (unpack_packBits stream)
  rw [unpack_length, List.length_append, zeros_length, padCount] at hlen
  omega

/-- Settles O48: a cut buffer that did not answer TruncatedBuffer would answer the image, and then hold every bit of the
frame; but a byte less is too few. -/
theorem shortenedFrameFails : Obligations.ShortenedFrameFails := by
  intro w h pixels s buf n hlen henc hn t
  have hbuf : packBits (frameBits w h pixels) = buf := by
    rw [exec_encodeImage w h pixels s hlen] at henc
    simpa [State.respond] using henc
  have hframe : unpack (buf.take n ++ buf.drop n) =
      frameBits w h pixels ++ zeros (padCount (frameBits w h pixels).length) := by
    rw [List.take_append_drop, ← hbuf, unpack_packBits]
  have htrunc : decodeFrame (buf.take n) = .error .truncatedBuffer := by
    by_contra hne
    have himg := decodeFrame_append (buf.drop n) hne
    rw [decodeFrame_of_frameBits hlen hframe] at himg
    have hfits := frameBits_length_le hlen hframe himg.symm
    have hpacked := packBits_length (frameBits w h pixels)
    rw [hbuf] at hpacked
    rw [List.length_take, Nat.min_eq_left hn.le] at hfits
    omega
  rw [exec_decode, htrunc]
  rfl

end Sys2Proof.Machine
end

section
/-! PROOFS. What an operation can do, and with it the claims about every request: 00_scope.md section 5, 10_state.md
rule R12, 60_exceptions.md rules R86, R90 and R91. -/

namespace Sys2Proof.Machine

/-- The operation completes: its response is no error, only the caller-visible units change, `BW.out` grows at its end,
and at most 7 bits pend if they did (R10, R12, R13). -/
def State.completes (s t : State) : Prop :=
  ∃ (w : BitWriter) (p : Byte) (r : Response), t = { s with bw := w, pred := p }.respond r ∧ s.bw.out <+: w.out ∧
    (s.bw.part.length ≤ 7 → w.part.length ≤ 7) ∧ ∀ k, r ≠ .error k

/-- An operation that leaves the writer alone completes. -/
theorem completes_of_pred (s : State) (p : Byte) (r : Response) (hr : ∀ k, r ≠ .error k) :
    s.completes ({ s with pred := p }.respond r) :=
  ⟨s.bw, p, r, rfl, List.prefix_refl _, id, hr⟩

/-- Every operation that answers a next state raises one of its kinds or completes (R9, R86). -/
theorem exec_operation_cases {i : Instr} {s t : State} (hi : isOperation i = true) (h : exec i s = .next t) :
    (∃ k, mayRaise i k = true ∧ t = s.raise k) ∨ s.completes t := by
  cases i with
  | hdr w ht => cases hi
  | lit v => cases hi
  | dlt sg m => cases hi
  | append bits =>
    cases h
    exact .inr ⟨_, s.pred, _, rfl, append_out_prefix s.bw bits, append_part_le s.bw bits, nofun⟩
  | finalize =>
    cases h
    exact .inr ⟨_, s.pred, _, rfl, finalize_out_prefix s.bw, fun _ => by simp, nofun⟩
  | read buf p n =>
    by_cases hn : 1 ≤ n ∧ n ≤ 16
    · rcases Nat.lt_or_ge (8 * buf.length) (p + n) with hlt | hle
      · cases (exec_read_of_lt buf p n s hn hlt).symm.trans h
        exact .inl ⟨_, rfl, rfl⟩
      · cases (exec_read_of_le buf p n s hn hle).symm.trans h
        exact .inr (completes_of_pred s s.pred _ nofun)
    · cases (exec_read_of_bad_length buf p n s hn).symm.trans h
  | chReset =>
    cases h
    exact .inr (completes_of_pred s _ _ nofun)
  | encodeSample x =>
    cases h
    exact .inr (completes_of_pred s _ _ nofun)
  | decodeSample code =>
    cases hv : decodeValue s.pred code with
    | none =>
      cases (exec_decodeSample_of_none hv).symm.trans h
      exact .inl ⟨_, rfl, rfl⟩
    | some v =>
      cases (exec_decodeSample_of_some hv).symm.trans h
      exact .inr (completes_of_pred s _ _ nofun)
  | encode w ht pixels =>
    rcases validate_cases w ht pixels with ⟨img, hval, _⟩ | ⟨k, hval, hk⟩
    · cases (exec_encode_of_ok s hval).symm.trans h
      exact .inr (completes_of_pred s s.pred _ nofun)
    · cases (exec_encode_of_error s hval).symm.trans h
      exact .inl ⟨k, by rcases hk with rfl | rfl <;> rfl, rfl⟩
  | decode buf =>
    cases (exec_decode buf s).symm.trans h
    rcases decodeFrame_cases buf with ⟨w, ht, pixels, himg⟩ | herr | herr
    · rw [himg]
      exact .inr (completes_of_pred s s.pred _ nofun)
    · rw [herr]
      exact .inl ⟨_, rfl, rfl⟩
    · rw [herr]
      exact .inl ⟨_, rfl, rfl⟩

/-- An operation whose response is an error raised it, and it is one of its kinds (R86, R91). -/
theorem exec_operation_error {i : Instr} {s t : State} {k : ErrorKind} (hi : isOperation i = true)
    (h : exec i s = .next t) (hresp : t.responses = .error k :: s.responses) : mayRaise i k = true ∧ t = s.raise k := by
  rcases exec_operation_cases hi h with ⟨k', hmay, rfl⟩ | ⟨w, p, r, rfl, _, _, hr⟩
  · obtain rfl : k' = k := by simpa using hresp
    exact ⟨hmay, rfl⟩
  · rw [respond_responses] at hresp
    exact absurd (List.cons.inj hresp).1 (hr k)

/-- R90: RoundTripMismatch stands in no operation's row of R86's table. -/
theorem mayRaise_roundTripMismatch (i : Instr) : mayRaise i .roundTripMismatch = false := by
  cases i <;> rfl

/-- Settles O14: the response is a kind of the operation's, and RoundTripMismatch is none's. -/
theorem operationsRaiseOnlyTheirKinds : Obligations.OperationsRaiseOnlyTheirKinds := by
  intro i s t k hi hexec hresp
  obtain ⟨hmay, _⟩ := exec_operation_error hi hexec hresp
  refine ⟨hmay, ?_⟩
  rintro rfl
  rw [mayRaise_roundTripMismatch] at hmay
  cases hmay

/-- Settles O15: the state is the one that raised. -/
theorem errorChangesNoRegister : Obligations.ErrorChangesNoRegister := by
  intro i s t k hi hexec hresp
  exact (exec_operation_error hi hexec hresp).2

/-- What an idle step that answers a next state does: it takes one request and runs it, with no run in progress and the
run's registers left alone (R8, R10, R12, R13). -/
theorem step_of_idle {s t : State} (hrun : s.run = none) (h : step s = .next t) :
    t.run = none ∧ t.fc = s.fc ∧ (∃ q, s.requests = q :: t.requests) ∧ (∃ r, t.responses = r :: s.responses) ∧
      s.bw.out <+: t.bw.out ∧ (s.bw.part.length ≤ 7 → t.bw.part.length ≤ 7) := by
  rcases fetchNext_idle s hrun with ⟨_, hfetch⟩ | ⟨q, rest, hreq, ⟨i, hq, _⟩ | ⟨e, hq, _⟩⟩
  · simp only [step, hfetch] at h
    cases h
  · rw [step_of_decodeRequest_ok hrun hreq hq] at h
    rcases exec_operation_cases (decodeRequest_isOperation q i hq) h with ⟨k, _, rfl⟩ | ⟨w, p, r, rfl, hout, hpart, _⟩
    · exact ⟨hrun, rfl, ⟨q, hreq⟩, ⟨_, rfl⟩, List.prefix_refl _, id⟩
    · exact ⟨hrun, rfl, ⟨q, hreq⟩, ⟨_, rfl⟩, hout, hpart⟩
  · rw [step_of_decodeRequest_error hrun hreq hq] at h
    cases h

/-- Settles O10: what an idle step does, but for the writer. -/
theorem requestIsAtomic : Obligations.RequestIsAtomic := by
  intro s t hrun hstep
  obtain ⟨hidle, hfc, htaken, hgiven, _⟩ := step_of_idle hrun hstep
  exact ⟨hidle, hfc, htaken, hgiven⟩

/-- Settles O12: a request appends to `BW.out` at most; a run leaves it alone. -/
theorem outputBufferOnlyGrows : Obligations.OutputBufferOnlyGrows := by
  intro s t hstep
  cases hrun : s.run with
  | none =>
    obtain ⟨_, _, _, _, hout, _⟩ := step_of_idle hrun hstep
    exact hout
  | some k =>
    rw [step_of_run hrun] at hstep
    cases hstep
    rw [progress_bw]

/-- A code item never faults. -/
theorem runCode_ne_fault (code : Code) (s : State) (f : Fault) : runCode code s ≠ .fault f := by
  unfold runCode
  repeat' split
  all_goals nofun

theorem execHdr_ne_fault (w h : Half) (s : State) (f : Fault) : execHdr w h s ≠ .fault f := by
  unfold execHdr
  repeat' split
  all_goals nofun

theorem exec_ne_fault (i : Instr) (s : State) (f : Fault) : exec i s ≠ .fault f := by
  cases i with
  | hdr w h => exact execHdr_ne_fault w h s f
  | lit v => exact runCode_ne_fault (.lit v) s f
  | dlt sg m => exact runCode_ne_fault (.dlt sg m) s f
  | append bits => nofun
  | finalize => nofun
  | read buf p n =>
    by_cases hn : 1 ≤ n ∧ n ≤ 16
    · rcases Nat.lt_or_ge (8 * buf.length) (p + n) with hlt | hle
      · rw [exec_read_of_lt buf p n s hn hlt]; nofun
      · rw [exec_read_of_le buf p n s hn hle]; nofun
    · rw [exec_read_of_bad_length buf p n s hn]; nofun
  | chReset => nofun
  | encodeSample x => nofun
  | decodeSample code =>
    cases hv : decodeValue s.pred code with
    | none => rw [exec_decodeSample_of_none hv]; nofun
    | some v => rw [exec_decodeSample_of_some hv]; nofun
  | encode w h pixels =>
    rcases validate_cases w h pixels with ⟨img, hval, _⟩ | ⟨k, hval, _⟩
    · rw [exec_encode_of_ok s hval]; nofun
    · rw [exec_encode_of_error s hval]; nofun
  | decode buf => rw [exec_decode]; nofun

theorem step_ne_fault (s : State) (f : Fault) : step s ≠ .fault f := by
  unfold step
  cases fetchNext s with
  | instr i t => exact exec_ne_fault i t f
  | internal t => nofun
  | refuse r => nofun

/-- Settles O13: ENCODE and DECODE end within their fuel, and nothing else could fault. -/
theorem nothingFaults : Obligations.NothingFaults :=
  ⟨exec_ne_fault, step_ne_fault⟩

end Sys2Proof.Machine
end

section
/-! PROOFS. The invariant of the machine: 10_state.md rules R13, R18 to R20 and R24. -/

namespace Sys2Proof.Machine

/-- Settles O1: the fields of the reset state, evaluated. -/
theorem resetHoldsTheSpecsValues : Obligations.ResetHoldsTheSpecsValues :=
  ⟨rfl, rfl, rfl, rfl, rfl, rfl, rfl, rfl, rfl, rfl, rfl, rfl, rfl, rfl, rfl⟩

/-- Settles O2: both writers are empty, and the run's registers those of reset. -/
theorem resetIsLawful : Obligations.ResetIsLawful :=
  ⟨Nat.zero_le _, Nat.zero_le _, rfl⟩

/-- The registers of a run are lawful and its writer canonical (R13, R18). -/
def Fc.ok (f : Fc) (k : RunKind) : Prop :=
  f.bw.part.length ≤ 7 ∧ f.lawful (some k)

theorem lawful_decode_of_headerDone {f : Fc} (h : f.headerDone = true) :
    f.lawful (some .decode) ↔ f.positioned f.cur ∧ ∀ c, (f.chan.get c).length = f.samplesDone c := by
  simp only [Fc.lawful, h, if_true]

theorem lawful_decode_of_not_headerDone {f : Fc} (h : f.headerDone = false) :
    f.lawful (some .decode) ↔ f = Fc.startDecode f.buf := by
  simp only [Fc.lawful, h, Bool.false_eq_true, if_false]

theorem lawful_encode_of_headerDone {f : Fc} (h : f.headerDone = true) :
    f.lawful (some .encode) ↔ f.pixels.length = f.width.toNat * f.height.toNat ∧ f.positioned f.bw.pos := by
  simp only [Fc.lawful, h, if_true]

theorem lawful_encode_of_not_headerDone {f : Fc} (h : f.headerDone = false) :
    f.lawful (some .encode) ↔ f.pixels.length = f.width.toNat * f.height.toNat ∧
      f = Fc.startEncode { width := f.width, height := f.height, pixels := f.pixels } := by
  simp only [Fc.lawful, h, Bool.false_eq_true, if_false]

/-- `g` stands at another point of the same image's walk (R84): nothing that says how many samples there are differs. -/
def Fc.sameImage (f g : Fc) : Prop :=
  g.width = f.width ∧ g.height = f.height ∧ g.count = f.count

/-- From `f` to `g` one sample of channel c was coded (R84). -/
def Fc.codesSample (f g : Fc) (c : Channel) : Prop :=
  f.ch = some c ∧ f.idx < f.count ∧ g.ch = some c ∧ g.idx = f.idx + 1 ∧ f.sameImage g

/-- From `f` to `g` the complete channel c gave way to the next (R84). -/
def Fc.leavesChannel (f g : Fc) (c : Channel) : Prop :=
  f.ch = some c ∧ f.idx = f.count ∧ g.ch = Machine.nextChannel c ∧ g.idx = 0 ∧ f.sameImage g

/-- One sample more of the channel being coded is done, and none of another (R84). -/
theorem samplesDone_of_codesSample {f g : Fc} {c : Channel} (h : f.codesSample g c) (d : Channel) :
    g.samplesDone d = f.samplesDone d + if d = c then 1 else 0 := by
  obtain ⟨hch, _, hch', hidx', _, _, hcount⟩ := h
  cases c <;> cases d <;> simp [Fc.samplesDone, hch, hch', hidx', hcount]

/-- A complete channel counts as done, whether it is still the one being coded or the next one is (R84). -/
theorem samplesDone_of_leavesChannel {f g : Fc} {c : Channel} (h : f.leavesChannel g c) (d : Channel) :
    g.samplesDone d = f.samplesDone d := by
  obtain ⟨hch, hidx, hch', hidx', _, _, hcount⟩ := h
  cases c <;> cases d <;> simp [Fc.samplesDone, nextChannel, hch, hidx, hch', hidx', hcount]

/-- At (red, 0) no sample is done (R84). -/
theorem samplesDone_of_start {f : Fc} (hch : f.ch = some .red) (hidx : f.idx = 0) (d : Channel) :
    f.samplesDone d = 0 := by
  cases d <;> simp [Fc.samplesDone, hch, hidx]

/-- R19, R20: a sample's code of 5 to 9 bits keeps the stream position in its bounds. -/
theorem positioned_of_codesSample {f g : Fc} {c : Channel} {pos len : Nat} (h : f.codesSample g c)
    (hpos : f.positioned pos) (hlo : 5 ≤ len) (hhi : len ≤ 9) : g.positioned (pos + len) := by
  have htotal : g.totalDone = f.totalDone + 1 := by
    simp only [Fc.totalDone, samplesDone_of_codesSample h]
    cases c <;> simp <;> omega
  obtain ⟨_, hlt, _, hidx', hwidth, hheight, hcount⟩ := h
  obtain ⟨hprod, _, hleast, hmost⟩ := hpos
  refine ⟨by rw [hcount, hwidth, hheight, hprod], by omega, ?_, ?_⟩
  · rw [htotal]; simp only [Config.curInit, Config.dltBits] at *; omega
  · rw [htotal]; simp only [Config.curInit, Config.litBits] at *; omega

theorem positioned_of_leavesChannel {f g : Fc} {c : Channel} {pos : Nat} (h : f.leavesChannel g c)
    (hpos : f.positioned pos) : g.positioned pos := by
  have htotal : g.totalDone = f.totalDone := by simp only [Fc.totalDone, samplesDone_of_leavesChannel h]
  obtain ⟨_, _, _, hidx', hwidth, hheight, hcount⟩ := h
  obtain ⟨hprod, _, hleast, hmost⟩ := hpos
  exact ⟨by rw [hcount, hwidth, hheight, hprod], by omega, by rwa [htotal], by rwa [htotal]⟩

/-- R19, R20: at (red, 0) the stream position is 32. -/
theorem positioned_of_start {f : Fc} (hch : f.ch = some .red) (hidx : f.idx = 0)
    (hcount : f.count = f.width.toNat * f.height.toNat) : f.positioned 32 := by
  have htotal : f.totalDone = 0 := by simp only [Fc.totalDone, samplesDone_of_start hch hidx]
  refine ⟨hcount, by omega, ?_, ?_⟩ <;> rw [htotal] <;> decide

/-- R47: a code is 5 to 9 bits long. -/
theorem codeLength_bounds (code : Code) : 5 ≤ codeLength code ∧ codeLength code ≤ 9 := by
  cases code <;> simp [codeLength, Config.litBits, Config.dltBits]

theorem nextChannel_leavesChannel {f : Fc} {c : Channel} {pos : Nat} (hch : f.ch = some c) (hidx : f.count ≤ f.idx)
    (hpos : f.positioned pos) : f.leavesChannel (f.nextChannel c) c := by
  obtain ⟨_, hle, _⟩ := hpos
  rw [nextChannel_eq]
  exact ⟨hch, Nat.le_antisymm hle hidx, rfl, rfl, rfl, rfl, rfl⟩

/-- The header's step of a DECODE run (R82): from a bound buffer to (red, 0). -/
theorem takeHeader_ok {f : Fc} (w h : Half) (hhead : f.headerDone = false) (hok : f.ok .decode) :
    (f.takeHeader w h).ok .decode := by
  obtain ⟨hpart, hlawful⟩ := hok
  have hstart := (lawful_decode_of_not_headerDone hhead).mp hlawful
  refine ⟨hpart, (lawful_decode_of_headerDone rfl).mpr ⟨positioned_of_start rfl rfl rfl, fun c => ?_⟩⟩
  rw [samplesDone_of_start rfl rfl, takeHeader_chan, hstart]
  cases c <;> rfl

/-- The header's step of an ENCODE run (R80): 32 bits in the run's writer. -/
theorem emitHeader_ok {f : Fc} (hhead : f.headerDone = false) (hok : f.ok .encode) : f.emitHeader.ok .encode := by
  obtain ⟨hpart, hlawful⟩ := hok
  obtain ⟨hlen, hstart⟩ := (lawful_encode_of_not_headerDone hhead).mp hlawful
  have hpos : f.emitHeader.bw.pos = 32 := by
    rw [hstart, startEncode_emitHeader_bw, append_pos, headerBits_length]
    rfl
  refine ⟨?_, (lawful_encode_of_headerDone rfl).mpr ⟨hlen, ?_⟩⟩
  · rw [emitHeader_eq]
    exact append_part_le _ _ hpart
  · rw [hpos]
    refine positioned_of_start rfl rfl ?_
    rw [hstart]
    rfl

/-- An iteration of a DECODE run past its header (R84). -/
theorem tick_decode_ok {f g : Fc} (hhead : f.headerDone = true) (hok : f.ok .decode)
    (htick : f.tick .decode = .running g) : g.ok .decode := by
  obtain ⟨hpart, hlawful⟩ := hok
  obtain ⟨hpos, hchan⟩ := (lawful_decode_of_headerDone hhead).mp hlawful
  have hhead' : g.headerDone = true := (tick_running_headerDone htick).trans hhead
  rcases tick_running_cases htick with ⟨c, hch, hidx, rfl⟩ | ⟨_, c, code, v, hch, hidx, rfl⟩ | ⟨hk, _⟩ | rfl
  · have hleave := nextChannel_leavesChannel hch hidx hpos
    have hpos' := positioned_of_leavesChannel hleave hpos
    have hdone := samplesDone_of_leavesChannel hleave
    refine ⟨?_, (lawful_decode_of_headerDone hhead').mpr ⟨?_, fun d => ?_⟩⟩
    · rwa [nextChannel_eq]
    · rwa [nextChannel_eq] at hpos' ⊢
    · rw [hdone, ← hchan, nextChannel_eq]
  · have hsample : f.codesSample { f with
        pred := v, chan := f.chan.push c v, cur := f.cur + codeLength code, idx := f.idx + 1 } c :=
      ⟨hch, hidx, hch, rfl, rfl, rfl, rfl⟩
    obtain ⟨hlo, hhi⟩ := codeLength_bounds code
    refine ⟨hpart, (lawful_decode_of_headerDone hhead').mpr ⟨positioned_of_codesSample hsample hpos hlo hhi,
      fun d => ?_⟩⟩
    rw [samplesDone_of_codesSample hsample, ← hchan]
    by_cases hd : d = c
    · rw [hd, push_get_same, if_pos rfl, List.length_append, List.length_singleton]
    · rw [push_get_other _ _ _ _ hd, if_neg hd, Nat.add_zero]
  · cases hk
  · exact ⟨hpart, hlawful⟩

/-- An iteration of an ENCODE run past its header (R84). -/
theorem tick_encode_ok {f g : Fc} (hhead : f.headerDone = true) (hok : f.ok .encode)
    (htick : f.tick .encode = .running g) : g.ok .encode := by
  obtain ⟨hpart, hlawful⟩ := hok
  obtain ⟨hlen, hpos⟩ := (lawful_encode_of_headerDone hhead).mp hlawful
  have hhead' : g.headerDone = true := (tick_running_headerDone htick).trans hhead
  rcases tick_running_cases htick with ⟨c, hch, hidx, rfl⟩ | ⟨hk, _⟩ | ⟨_, c, x, hch, hidx, rfl⟩ | rfl
  · have hpos' := positioned_of_leavesChannel (nextChannel_leavesChannel hch hidx hpos) hpos
    rw [nextChannel_eq] at hpos' hhead' ⊢
    exact ⟨hpart, (lawful_encode_of_headerDone hhead').mpr ⟨hlen, hpos'⟩⟩
  · cases hk
  · have hsample : f.codesSample (f.emit x) c := ⟨hch, hidx, hch, rfl, rfl, rfl, rfl⟩
    obtain ⟨hlo, hhi⟩ := codeLength_bounds (encodeValue f.openChannel.pred x)
    have hmove : (f.emit x).bw.pos = f.bw.pos + codeLength (encodeValue f.openChannel.pred x) := by
      rw [← ser_length]
      exact append_pos _ _
    refine ⟨append_part_le _ _ hpart, (lawful_encode_of_headerDone hhead').mpr ⟨hlen, ?_⟩⟩
    rw [hmove]
    exact positioned_of_codesSample hsample hpos hlo hhi
  · exact ⟨hpart, hlawful⟩

/-- What a run does next keeps its registers lawful (R18 to R20). -/
theorem advance_ok {f g : Fc} {k : RunKind} (hok : f.ok k) (h : f.advance k = .running g) : g.ok k := by
  cases hhead : f.headerDone with
  | false =>
    cases k with
    | encode =>
      cases (advance_encode_header hhead).symm.trans h
      exact emitHeader_ok hhead hok
    | decode =>
      cases hread : decodeHeader f.buf with
      | none => cases (advance_decode_truncated hhead hread).symm.trans h
      | some wh =>
        cases (advance_decode_header (w := wh.1) (ht := wh.2) hhead hread).symm.trans h
        exact takeHeader_ok wh.1 wh.2 hhead hok
  | true =>
    rw [advance_of_headerDone k hhead] at h
    cases k with
    | encode => exact tick_encode_ok hhead hok h
    | decode => exact tick_decode_ok hhead hok h

/-- Settles O3: a request leaves the run's registers alone; a run keeps them lawful, or ends and puts them back. -/
theorem stepKeepsLawful : Obligations.StepKeepsLawful := by
  intro s t hinv hstep
  obtain ⟨hbw, hfcbw, hlawful⟩ := hinv
  cases hrun : s.run with
  | none =>
    obtain ⟨hrun', hfc, _, _, _, hpart⟩ := step_of_idle hrun hstep
    exact ⟨hpart hbw, by rwa [hfc], by rwa [hrun', hfc, ← hrun]⟩
  | some k =>
    rw [step_of_run hrun] at hstep
    cases hstep
    rw [hrun] at hlawful
    cases hadv : s.fc.advance k with
    | running g =>
      obtain ⟨hpart, hg⟩ := advance_ok ⟨hfcbw, hlawful⟩ hadv
      exact ⟨hbw, hpart, by rw [progress_running, hrun]; exact hg⟩
    | finished r => exact ⟨hbw, Nat.zero_le _, rfl⟩

end Sys2Proof.Machine
end
